-- ==== Sys2Proof/Word.lean ====
section
/-! DEFINITION. The two widths of the machine (spec 00_scope.md R4: `DATA_W` = 8, `ADDR_W` = 16). All register and
memory values are unsigned (R6). -/

namespace Sys2Proof

/-- A memory cell, a register `A`, `X`, `Y`, an opcode or an 8-bit operand: 8 bits (R4). -/
abbrev Byte := BitVec 8

/-- An address, `PC` or `SP`: 16 bits (R4). Arithmetic on it is modulo 2^16 (10_state.md R15, R17). -/
abbrev Word := BitVec 16

end Sys2Proof
end

