-- ==== Sys2Proof/Config.lean ====
section
/-! DEFINITION. The one parameter the spec leaves open (spec 00_scope.md R5, 92_eei_decisions.md D1). -/

namespace Sys2Proof.Config

/-- `ZPX_WRAP` (R5, R102, D1): whether the zero-page,X sum is reduced modulo 256. The document forbids choosing it
silently, so it has no body: nothing proved about the machine depends on its value (assumption log 3).
DESIGN CHOICE: one constant for the whole machine. Safe. -/
opaque zpxWrap : Bool

end Sys2Proof.Config
end

