-- ==== Sys2Proof/Syntax.lean ====
section
/-! DEFINITION. The instructions (spec 30_encoding.md R65, R66; opcode_table.json): one constructor per mnemonic of
the table. The 251 rows named UNRECOGNIZED differ in nothing but the opcode byte, which the constructor carries. -/

namespace Sys2Proof

inductive Instr where
  /-- `LDA #imm8`, opcode `0xA9` (R65, R111). -/
  | ldaImm (imm8 : Byte)
  /-- `LDA zp`, opcode `0xA5` (R65, R112). -/
  | ldaZp (zp8 : Byte)
  /-- `LDA zp,X`, opcode `0xB5` (R65, R113). -/
  | ldaZpX (zp8 : Byte)
  /-- `LDA abs`, opcode `0xAD` (R65, R114). -/
  | ldaAbs (abs16 : Word)
  /-- `JSR abs`, opcode `0x20` (R65, R120). -/
  | jsrAbs (abs16 : Word)
  /-- Any other opcode byte (R66, R130): reported and skipped. -/
  | unrecognized (opcode : Byte)
  deriving DecidableEq, Repr

end Sys2Proof
end

