-- ==== Sys2Proof/WellFormed.lean ====
section
/-! DEFINITION. Which terms of `Instr` are instructions of the machine. Every operand value is legal for every
instruction that takes one (spec 30_encoding.md R67); an unrecognized opcode is a byte other than the five (R66). -/

namespace Sys2Proof

/-- The five recognized opcode values (R2, R65). -/
def recognizedOpcodes : List Byte := [0xA9, 0xA5, 0xB5, 0xAD, 0x20]

/-- The check: an `unrecognized` instruction carries none of the five recognized values. -/
def Instr.wf : Instr → Bool
  | .ldaImm _ => true
  | .ldaZp _ => true
  | .ldaZpX _ => true
  | .ldaAbs _ => true
  | .jsrAbs _ => true
  | .unrecognized op => !recognizedOpcodes.contains op

/-- `i` is an instruction of the machine. -/
abbrev Instr.WellFormed (i : Instr) : Prop := i.wf = true

end Sys2Proof
end

