-- ==== Sys2Proof/Decode.lean ====
section
/-! DEFINITION. Decoding and encoding (spec 30_encoding.md). An instruction is an opcode byte and 0, 1 or 2 operand
bytes at increasing addresses (R60); the opcode byte alone decides the format (R62) and the operation (R61). -/

namespace Sys2Proof

/-- The low byte `v[7:0]` of a 16-bit value (00_scope.md R6). -/
def loByte (w : Word) : Byte := w.extractLsb' 0 8

/-- The high byte `v[15:8]` of a 16-bit value (00_scope.md R6). -/
def hiByte (w : Word) : Byte := w.extractLsb' 8 8

/-- `{hi, lo}`, the 16-bit value `hi * 256 + lo` (00_scope.md R6, 30_encoding.md R64). -/
def wordOf (lo hi : Byte) : Word := hi ++ lo

/-- What an opcode byte asks for: the format of R60 and the instruction its operand completes. -/
inductive OpForm where
  /-- `OP1`: no operand byte. -/
  | op1 (i : Instr)
  /-- `OP2`: one operand byte. -/
  | op2 (build : Byte → Instr)
  /-- `OP3`: two operand bytes, a 16-bit operand. -/
  | op3 (build : Word → Instr)

/-- The opcode map (R65, R66): dispatch on the whole value of the opcode byte (R61, 40_execute_loop.md R92). -/
def opForm (op : Byte) : OpForm :=
  if op = 0xA9 then .op2 .ldaImm
  else if op = 0xA5 then .op2 .ldaZp
  else if op = 0xB5 then .op2 .ldaZpX
  else if op = 0xAD then .op3 .ldaAbs
  else if op = 0x20 then .op3 .jsrAbs
  else .op1 (.unrecognized op)

/-- Why a byte sequence is no instruction. No opcode value is rejected (R66): only a sequence that ends too soon. -/
inductive DecodeReject where
  /-- The sequence is empty: there is no opcode byte. -/
  | noOpcode
  /-- The sequence ends before the operand bytes that the opcode `op` asks for (R62). -/
  | missingOperand (op : Byte)
  deriving DecidableEq, Repr

/-- The instruction at the head of a byte sequence, and the bytes after it. A 16-bit operand has its least
significant byte first (R64). -/
def decode : List Byte → Except DecodeReject (Instr × List Byte)
  | [] => .error .noOpcode
  | op :: rest =>
    match opForm op, rest with
    | .op1 i, rest => .ok (i, rest)
    | .op2 build, v :: rest => .ok (build v, rest)
    | .op3 build, lo :: hi :: rest => .ok (build (wordOf lo hi), rest)
    | .op2 _, [] => .error (.missingOperand op)
    | .op3 _, [] => .error (.missingOperand op)
    | .op3 _, [_] => .error (.missingOperand op)

/-- The bytes of an instruction, opcode first (R60, R64, R65). -/
def encode : Instr → List Byte
  | .ldaImm v => [0xA9, v]
  | .ldaZp z => [0xA5, z]
  | .ldaZpX z => [0xB5, z]
  | .ldaAbs w => [0xAD, loByte w, hiByte w]
  | .jsrAbs w => [0x20, loByte w, hiByte w]
  | .unrecognized op => [op]

/-- The length in bytes (R60, R62). -/
def Instr.length : Instr → Nat
  | .ldaImm _ => 2
  | .ldaZp _ => 2
  | .ldaZpX _ => 2
  | .ldaAbs _ => 3
  | .jsrAbs _ => 3
  | .unrecognized _ => 1

/-- The length of the longest instruction (R60). -/
def maxLength : Nat := 3

/-- The `n` bytes of the number `w`, bits 7:0 first: byte 0 of the opcode table is bits 7:0, byte 1 bits 15:8. -/
def tableBytes : Nat → Nat → List Byte
  | 0, _ => []
  | n + 1, w => BitVec.ofNat 8 w :: tableBytes n (w / 256)

/-- The instruction the decoder reads where the table gives the low `nbits` bits of `w`; every bit above them, up to
the longest instruction, is 0. -/
def decodeTableWord (nbits w : Nat) : Option Instr :=
  match decode (tableBytes maxLength (w % 2 ^ nbits)) with
  | .ok (i, _) => some i
  | .error _ => none

end Sys2Proof
end

