-- ==== Sys2Proof/Machine/State.lean ====
section
/-! DEFINITION. The state of the machine (spec 10_state.md R10: "The complete state of the machine is the following
and nothing else"), its value after Reset, and the reasons a step can stop. -/

namespace Sys2Proof.Machine

/-- The eight status flags (10_state.md R18), in the document's order (R19): eight independent booleans with no
packed form. -/
structure Flags where
  /-- Carry, index 0 (R20). -/
  c : Bool
  /-- Zero, index 1 (R21). -/
  z : Bool
  /-- InterruptDisable, index 2 (R22). -/
  i : Bool
  /-- Decimal, index 3 (R23). -/
  d : Bool
  /-- Break, index 4 (R24). -/
  b : Bool
  /-- Reserved, index 5 (R25). -/
  r : Bool
  /-- Overflow, index 6 (R26). -/
  v : Bool
  /-- Negative, index 7 (R27). -/
  n : Bool
  deriving DecidableEq, Repr

/-- The name of a flag (R18). -/
inductive FlagName where
  | carry | zero | interruptDisable | decimal | break_ | reserved | overflow | negative
  deriving DecidableEq, Repr

/-- The memory (R31, 20_memory.md R40): the cells that differ from `0x00`, by rising address. An unlisted address
reads as `0x00`, the value Reset gives every cell (R34; assumption log 6). -/
abbrev Memory := List Host.Cell

/-- The canonical form from address `low` on: addresses strictly rising, each at least `low` and below 65536, and no
listed byte equal to what an unlisted address reads as. -/
def Memory.wfFrom : Nat → Memory → Bool
  | _, [] => true
  | low, (k, v) :: m => decide (low ≤ k) && decide (k < 0x10000) && decide (v ≠ 0) && Memory.wfFrom (k + 1) m

/-- The memory is in canonical form. -/
def Memory.wf (m : Memory) : Bool := Memory.wfFrom 0 m

structure State where
  /-- `PC`, the program counter (R14). -/
  pc : Word
  /-- `SP`, the stack pointer, a full 16-bit address (R16). -/
  sp : Word
  /-- `A`, the accumulator (R11). -/
  a : Byte
  /-- `X`, the index register (R12). -/
  x : Byte
  /-- `Y` (R13). -/
  y : Byte
  /-- The eight flags (R18). -/
  f : Flags
  /-- `MEM` (R31). -/
  mem : Memory
  /-- `CYC`, the remaining cycle budget, a signed unbounded integer (R29). -/
  cyc : Int
  /-- The diagnostic event stream (R30), as the append-only list of the opcode bytes reported so far, oldest first.
  The model's field: an output of CORE that no rule reads. DESIGN CHOICE (assumption log 1). Safe. -/
  diag : List Byte
  deriving DecidableEq, Repr

/-- All flags false (R18, R34). -/
def Flags.clear : Flags :=
  { c := false, z := false, i := false, d := false, b := false, r := false, v := false, n := false }

/-- The machine right after Reset (R34, 70_reset_and_hazards.md R150, R151), nothing reported. DESIGN CHOICE, unsafe:
`cyc` is 0, since the spec gives `CYC` no reset value (R29; assumption log 2). -/
def State.reset : State :=
  { pc := 0xFFFC, sp := 0x0100, a := 0, x := 0, y := 0, f := Flags.clear, mem := [], cyc := 0, diag := [] }

/-- The faults: none. "CORE has no *fault* that stops it, no *stuck* state, and no *hang*" (60_exceptions.md R146);
no memory access can fail (20_memory.md R41, R42, R57). Nobody raises one. -/
inductive Fault where
  deriving DecidableEq, Repr

/-- The refusals. -/
inductive Refusal where
  /-- Raised by an arm of `exec` for an instruction without a meaning. No arm raises it: every instruction has its
  meaning. Safe, since a refused step proves nothing about the hardware. -/
  | notModelled (mnemonic : String)
  deriving DecidableEq, Repr

end Sys2Proof.Machine
end

