-- ==== Sys2Proof/Machine/Ops.lean ====
section
/-! DEFINITION. The named operations over memory and registers: the pseudocode primitives of spec 00_scope.md section 5
(`MemRead`, `MemWrite`, `FetchByte`, `FetchWord`, `charge`, `Report`) and the push of 43_jsr.md. Nothing else reads or
writes the memory list. -/

namespace Sys2Proof.Machine

/-- The byte at address `a`; an unlisted address reads as `0x00`. The list is ordered, so the search ends at the first
address above `a`. -/
def Memory.read : Memory → Nat → Byte
  | [], _ => 0
  | (k, v) :: m, a => if k < a then Memory.read m a else if k = a then v else 0

/-- A cell in front of a memory, in canonical form: a byte `0x00` is not listed. -/
def Memory.cell (a : Nat) (v : Byte) (m : Memory) : Memory := if v = 0 then m else (a, v) :: m

/-- The memory with `v` at address `a`, in canonical form. -/
def Memory.write : Memory → Nat → Byte → Memory
  | [], a, v => Memory.cell a v []
  | (k, w) :: m, a, v =>
    if k < a then (k, w) :: Memory.write m a v
    else if k = a then Memory.cell a v m
    else Memory.cell a v ((k, w) :: m)

/-- `PC <- v`. -/
def State.setPc (v : Word) (s : State) : State := { s with pc := v }

/-- `SP <- v`. -/
def State.setSp (v : Word) (s : State) : State := { s with sp := v }

/-- `A <- v`. -/
def State.setA (v : Byte) (s : State) : State := { s with a := v }

/-- `X <- v`: only the host and Reset write `X` (10_state.md R12). -/
def State.setX (v : Byte) (s : State) : State := { s with x := v }

/-- `Y <- v`: only the host and Reset write `Y` (10_state.md R13). -/
def State.setY (v : Byte) (s : State) : State := { s with y := v }

/-- `CYC <- n`: only `Execute` loads it (40_execute_loop.md R81). -/
def State.setCyc (n : Int) (s : State) : State := { s with cyc := n }

/-- `MemRead(addr, 1)` (20_memory.md R41): every 16-bit address is valid; it cannot fail and changes nothing. -/
def State.memRead (s : State) (addr : Word) : Byte := Memory.read s.mem addr.toNat

/-- `MemWrite(addr, 1, v)` (20_memory.md R42): sets the one cell; it cannot fail. -/
def State.memWrite (addr : Word) (v : Byte) (s : State) : State :=
  { s with mem := Memory.write s.mem addr.toNat v }

/-- `charge n` (40_execute_loop.md R87): `CYC <- CYC - n`; the budget may go negative (R82). -/
def State.charge (n : Nat) (s : State) : State := { s with cyc := s.cyc - (n : Int) }

/-- `Report(op)` (60_exceptions.md R130): emit one diagnostic event carrying the opcode byte. It is the whole of what
CORE does on its one exceptional condition (R131): there is no trap entry and no return from one (R135, R137). -/
def State.report (op : Byte) (s : State) : State := { s with diag := s.diag ++ [op] }

/-- `FetchByte()` (40_execute_loop.md R84): the byte at `PC`; `PC` advances by one, modulo 2^16. -/
def State.fetchByte (s : State) : Byte × State := (s.memRead s.pc, s.setPc (s.pc + 1))

/-- `FetchWord()` (40_execute_loop.md R85): two bytes at `PC`, low byte first. -/
def State.fetchWord (s : State) : Word × State :=
  let (lo, s1) := s.fetchByte
  let (hi, s2) := s1.fetchByte
  (wordOf lo hi, s2)

/-- Push a 16-bit value (43_jsr.md R120, R122): low byte at `SP`, then high byte at `SP + 1`, then `SP <- SP + 2`, all
modulo 2^16 with no wrap within a page (10_state.md R17). -/
def State.push (r : Word) (s : State) : State :=
  ((s.memWrite s.sp (loByte r)).memWrite (s.sp + 1) (hiByte r)).setSp (s.sp + 2)

/-- The bytes stored from address `addr` on, at consecutive addresses modulo 2^16. -/
def State.storeBytes : Word → List Byte → State → State
  | _, [], s => s
  | addr, v :: vs, s => State.storeBytes (addr + 1) vs (s.memWrite addr v)

end Sys2Proof.Machine
end

