-- ==== Sys2Proof/Machine/Operands.lean ====
section
/-! DEFINITION. The addressing-mode resolver (spec 41_addressing_modes.md). The operand bytes have been fetched; each
mode gives the literal or the 16-bit effective address. These four are all the modes (R105). -/

namespace Sys2Proof.Machine

/-- `zext_16(v)` (00_scope.md R6). -/
def zext16 (v : Byte) : Word := v.setWidth 16

/-- Immediate (R100): the operand byte is the value; there is no effective address. -/
def immediate (v : Byte) : Byte := v

/-- Zero-page (R101): `EA = zext_16(z)`. -/
def eaZeroPage (z : Byte) : Word := zext16 z

/-- `ZpxEA(z, x)` (R102) for a given value of `ZPX_WRAP`: the exact sum of the two bytes, reduced modulo 256 when
`wrap` is true. The two agree whenever the sum is below 256, so `wrap` is asked for only above that. -/
def zpxEA (wrap : Bool) (z x : Byte) : Word :=
  if z.toNat + x.toNat < 0x100 then zext16 z + zext16 x
  else if wrap then zext16 (z + x) else zext16 z + zext16 x

/-- Zero-page,X (R102): `X` is read as an unsigned index and is not modified. -/
def eaZeroPageX (z : Byte) (s : State) : Word := zpxEA Config.zpxWrap z s.x

/-- Absolute (R103): the 16-bit operand is the effective address. -/
def eaAbsolute (w : Word) : Word := w

/-- Absolute as `JSR` uses it (R104): the operand is the jump target; no memory is read there. -/
def jumpTarget (w : Word) : Word := w

end Sys2Proof.Machine
end

