-- ==== Sys2Proof/Machine/Jump.lean ====
section
/-! DEFINITION. `JSR`, the only control transfer (spec 43_jsr.md). `PC` is past the instruction's bytes, so both
operand bytes were fetched before anything is written (R121; assumption log 7). -/

namespace Sys2Proof.Machine

/-- `JSR abs` (R120): push `PC - 1`, the address of the instruction's last byte, then `PC <- target`; 6 cycles. -/
def execJsrAbs (abs16 : Word) (s : State) : Host.Outcome State Fault Refusal :=
  .next (((s.push (s.pc - 1)).setPc (jumpTarget abs16)).charge 6)

end Sys2Proof.Machine
end

