-- ==== Sys2Proof/Machine/Flags.lean ====
section
/-! DEFINITION. The flag logic (spec 42_lda.md R110) and access to a flag by name (10_state.md R18, R19). -/

namespace Sys2Proof.Machine

/-- `SetZN(v)` (R110): `F.Z <- (v == 0x00)`, `F.N <- (v[7] == 1)`; the six other flags are left as they were. -/
def State.setZN (v : Byte) (s : State) : State :=
  { s with f := { s.f with z := v == 0, n := v.getLsbD 7 } }

/-- The flags in the document's order, Carry first (10_state.md R19). -/
def Flags.toList (f : Flags) : List Bool := [f.c, f.z, f.i, f.d, f.b, f.r, f.v, f.n]

/-- The flags with one of them set to `v`. -/
def Flags.set (f : Flags) (which : FlagName) (v : Bool) : Flags :=
  match which with
  | .carry => { f with c := v }
  | .zero => { f with z := v }
  | .interruptDisable => { f with i := v }
  | .decimal => { f with d := v }
  | .break_ => { f with b := v }
  | .reserved => { f with r := v }
  | .overflow => { f with v := v }
  | .negative => { f with n := v }

end Sys2Proof.Machine
end

