-- ==== Sys2Proof/Machine/Load.lean ====
section
/-! DEFINITION. `LDA`, four forms (spec 42_lda.md). `PC` is past the instruction's bytes (assumption log 7). -/

namespace Sys2Proof.Machine

/-- What the four forms share: `A <- v`, `SetZN(A)`, `charge cost` (R111 to R114). No arithmetic on `v` (R115). -/
def loadA (v : Byte) (cost : Nat) (s : State) : Host.Outcome State Fault Refusal :=
  .next (((s.setA v).setZN v).charge cost)

/-- `LDA #imm8` (R111): 2 cycles. -/
def execLdaImm (imm8 : Byte) (s : State) : Host.Outcome State Fault Refusal :=
  loadA (immediate imm8) 2 s

/-- `LDA zp` (R112): 3 cycles. -/
def execLdaZp (zp8 : Byte) (s : State) : Host.Outcome State Fault Refusal :=
  loadA (s.memRead (eaZeroPage zp8)) 3 s

/-- `LDA zp,X` (R113): 4 cycles, whatever the sum. -/
def execLdaZpX (zp8 : Byte) (s : State) : Host.Outcome State Fault Refusal :=
  loadA (s.memRead (eaZeroPageX zp8 s)) 4 s

/-- `LDA abs` (R114): 4 cycles. -/
def execLdaAbs (abs16 : Word) (s : State) : Host.Outcome State Fault Refusal :=
  loadA (s.memRead (eaAbsolute abs16)) 4 s

end Sys2Proof.Machine
end

