-- ==== Sys2Proof/Machine/Unrecognized.lean ====
section
/-! DEFINITION. The unrecognized opcode (spec 60_exceptions.md R130): a defined step that reports and goes on, never a
stop (R146). -/

namespace Sys2Proof.Machine

/-- An unrecognized opcode (R130): one diagnostic event, 1 cycle, nothing else. -/
def execUnrecognized (opcode : Byte) (s : State) : Host.Outcome State Fault Refusal :=
  .next ((s.report opcode).charge 1)

end Sys2Proof.Machine
end

