-- ==== Sys2Proof/Machine/Fetch.lean ====
section
/-! DEFINITION. Fetching an instruction at `PC` (spec 40_execute_loop.md R83): the opcode byte, then as many operand
bytes as its format asks for, by `FetchByte` and `FetchWord`. -/

namespace Sys2Proof.Machine

/-- The instruction at `PC`, and the state with `PC` past its bytes. Every opcode byte has an arm (R92), so it is
total. -/
def State.fetchInstr (s : State) : Instr × State :=
  let (op, s1) := s.fetchByte
  match opForm op with
  | .op1 i => (i, s1)
  | .op2 build =>
    let (v, s2) := s1.fetchByte
    (build v, s2)
  | .op3 build =>
    let (w, s2) := s1.fetchWord
    (build w, s2)

/-- The state with the instruction that the table numbers `w` stored at `PC` (assumption log 5). -/
def State.placeTableWord (s : State) (nbits w : Nat) : State :=
  State.storeBytes s.pc (tableBytes maxLength (w % 2 ^ nbits)) s

end Sys2Proof.Machine
end

