-- ==== Sys2Proof/Machine/Step.lean ====
section
/-! DEFINITION. One step of CORE: `Step` of spec 40_execute_loop.md R83, one whole instruction (R80, R86). -/

namespace Sys2Proof.Machine

/-- `Step` (R83): fetch the instruction at `PC`, then perform it. It does not look at `CYC`: the loop condition is
read between Steps, by `Execute` (R82; `Sys2Proof.Machine.execute`, assumption log 4). -/
def step (s : State) : Host.Outcome State Fault Refusal :=
  match s.fetchInstr with
  | (i, s1) => exec i s1

/-- `s` with the instruction the table numbers `w` stored where `step` fetches, at `PC` (assumption log 5). -/
def State.withFetchWord (s : State) (nbits w : Nat) : State := s.placeTableWord nbits w

end Sys2Proof.Machine
end

