-- ==== Sys2Proof/Machine/Run.lean ====
section
/-! DEFINITION. `Execute` (spec 40_execute_loop.md): a run of whole instructions bounded by the cycle budget. -/

namespace Sys2Proof.Machine

/-- `n` successive Steps, whatever `CYC` holds: the states `s1, s2, ...` of R88. -/
def steps : Nat → State → Host.Outcome State Fault Refusal
  | 0, s => .next s
  | n + 1, s =>
    match step s with
    | .next t => steps n t
    | .fault r => .fault r
    | .refused r => .refused r

/-- `while CYC > 0 do Step` (R82), for at most `fuel` Steps. The condition is strict and is evaluated only between
instructions. -/
def runLoop : Nat → State → Host.Outcome State Fault Refusal
  | 0, s => .next s
  | fuel + 1, s =>
    if 0 < s.cyc then
      match step s with
      | .next t => runLoop fuel t
      | .fault r => .fault r
      | .refused r => .refused r
    else .next s

/-- `Execute(budget)` (R81): `CYC <- budget`, then the loop; nothing else is initialised. Every Step charges at least
1, so a run has at most `budget` Steps (R89) and that much fuel is enough. -/
def execute (budget : Int) (s : State) : Host.Outcome State Fault Refusal :=
  runLoop budget.toNat (s.setCyc budget)

end Sys2Proof.Machine
end

