-- ==== Sys2Proof/Machine/Requests.lean ====
section
/-! DEFINITION. The host's six requests (spec 70_reset_and_hazards.md R155). A request acts while CORE is idle; a run is
one call of `execute`, so none can act inside it (20_memory.md R55). -/

namespace Sys2Proof.Machine

/-- `InitMemory` (R156): every cell to `0x00`. -/
def initMemory (s : State) : State := { s with mem := [] }

/-- `Reset` (R150, R151): every register and flag to its value of 10_state.md R34, then the memory initialises itself;
`CYC` and the diagnostic stream are not touched. -/
def applyReset (s : State) : State := { State.reset with cyc := s.cyc, diag := s.diag }

/-- `Load` (R157): raw bytes into cells, each a `MemWrite`, in the order given. -/
def loadBytes : List (Word × Byte) → State → State
  | [], s => s
  | (addr, v) :: rest, s => loadBytes rest (s.memWrite addr v)

/-- One value the host writes into a register or flag (R158). -/
inductive RegisterWrite where
  | pc (v : Word)
  | sp (v : Word)
  | a (v : Byte)
  | x (v : Byte)
  | y (v : Byte)
  | flag (which : FlagName) (v : Bool)
  deriving DecidableEq, Repr

/-- Write one chosen value (R158). -/
def writeRegister (w : RegisterWrite) (s : State) : State :=
  match w with
  | .pc v => s.setPc v
  | .sp v => s.setSp v
  | .a v => s.setA v
  | .x v => s.setX v
  | .y v => s.setY v
  | .flag which v => { s with f := s.f.set which v }

/-- `SetRegisters` (R158). -/
def setRegisters : List RegisterWrite → State → State
  | [], s => s
  | w :: rest, s => setRegisters rest (writeRegister w s)

/-- What `ReadState` gives the reporter (R159): `A`, `X`, `Y` and the flags in the order Carry to Negative. -/
structure Readout where
  a : Byte
  x : Byte
  y : Byte
  flags : List Bool
  deriving DecidableEq, Repr

/-- `ReadState` (R159): reading changes nothing. -/
def readState (s : State) : Readout := { a := s.a, x := s.x, y := s.y, flags := s.f.toList }

/-- A request of the host (R155). -/
inductive Request where
  | initMemory
  | reset
  | load (cells : List (Word × Byte))
  | setRegisters (writes : List RegisterWrite)
  | execute (budget : Int)
  | readState
  deriving DecidableEq, Repr

/-- What a request does to the state (R155). -/
def serve (q : Request) (s : State) : Host.Outcome State Fault Refusal :=
  match q with
  | .initMemory => .next (initMemory s)
  | .reset => .next (applyReset s)
  | .load cells => .next (loadBytes cells s)
  | .setRegisters writes => .next (setRegisters writes s)
  | .execute budget => execute budget s
  | .readState => .next s

/-- The requests of a session, one after another (R153). -/
def serveAll : List Request → State → Host.Outcome State Fault Refusal
  | [], s => .next s
  | q :: rest, s =>
    match serve q s with
    | .next t => serveAll rest t
    | .fault r => .fault r
    | .refused r => .refused r

end Sys2Proof.Machine
end

