-- ==== Sys2Proof/Safety.lean ====
section
/-! DEFINITION. The vocabulary of the claims: invariants, what one step may touch, and what a run is charged. Nothing of
the machine calls it. -/

namespace Sys2Proof.Safety

open Sys2Proof.Machine

/-- The memory is in its one canonical form. -/
abbrev Canonical (s : State) : Prop := s.mem.wf = true

/-- Negative copies bit 7 of `A`, and Zero is set only while `A` is zero: true after Reset and after every `LDA`
(42_lda.md R110). It rules out both flags set at once. -/
def FlagsFitAccumulator (s : State) : Prop :=
  s.f.n = decide (0x80 ≤ s.a.toNat) ∧ (s.f.z = true → s.a = 0)

/-- What no instruction writes still has its Reset value: `X`, `Y` and the six flags other than Zero and Negative
(10_state.md R12, R13, R20, R22 to R26). -/
def UnwrittenStateIsClear (s : State) : Prop :=
  s.x = 0 ∧ s.y = 0 ∧ s.f.c = false ∧ s.f.i = false ∧ s.f.d = false ∧ s.f.b = false ∧ s.f.r = false ∧ s.f.v = false

/-- The opcode byte the next Step fetches. -/
def opcodeAt (s : State) : Byte := s.memRead s.pc

/-- The byte after the opcode. -/
def operand8At (s : State) : Byte := s.memRead (s.pc + 1)

/-- The two bytes after the opcode, least significant first (30_encoding.md R64). -/
def operand16At (s : State) : Word := wordOf (s.memRead (s.pc + 1)) (s.memRead (s.pc + 2))

/-- The table of total cycle costs (40_execute_loop.md R87). -/
def cycleCost (op : Byte) : Nat :=
  if op = 0xA9 then 2
  else if op = 0xA5 then 3
  else if op = 0xB5 then 4
  else if op = 0xAD then 4
  else if op = 0x20 then 6
  else 1

/-- The number of bytes of the instruction an opcode byte begins (30_encoding.md R62). -/
def lengthOf (op : Byte) : Nat :=
  if op = 0xA9 ∨ op = 0xA5 ∨ op = 0xB5 then 2
  else if op = 0xAD ∨ op = 0x20 then 3
  else 1

/-- The cells the next Step reads: its bytes, then its data cell if it has one (20_memory.md R46, R56). -/
def readReach (s : State) : List Word :=
  (List.range (lengthOf (opcodeAt s))).map (fun k => s.pc + BitVec.ofNat 16 k) ++
  if opcodeAt s = 0xA5 then [eaZeroPage (operand8At s)]
  else if opcodeAt s = 0xB5 then [eaZeroPageX (operand8At s) s]
  else if opcodeAt s = 0xAD then [eaAbsolute (operand16At s)]
  else []

/-- The cells the next Step writes: the two cells of `JSR`'s push (20_memory.md R46, R56). -/
def writeReach (s : State) : List Word :=
  if opcodeAt s = 0x20 then [s.sp, s.sp + 1] else []

/-- `c1 + ... + cn` of 40_execute_loop.md R88: what `n` Steps from `s` are charged. -/
def chargedOver : Nat → State → Nat
  | 0, _ => 0
  | n + 1, s =>
    cycleCost (opcodeAt s) +
    match step s with
    | .next t => chargedOver n t
    | .fault _ => 0
    | .refused _ => 0

/-- How many of `n` Steps from `s` execute `JSR`. -/
def jsrCount : Nat → State → Nat
  | 0, _ => 0
  | n + 1, s =>
    (if opcodeAt s = 0x20 then 1 else 0) +
    match step s with
    | .next t => jsrCount n t
    | .fault _ => 0
    | .refused _ => 0

/-- The opcode bytes that `n` Steps from `s` report, in program order (60_exceptions.md R130, R134). -/
def reportedOver : Nat → State → List Byte
  | 0, _ => []
  | n + 1, s =>
    (if recognizedOpcodes.contains (opcodeAt s) then [] else [opcodeAt s]) ++
    match step s with
    | .next t => reportedOver n t
    | .fault _ => []
    | .refused _ => []

/-- The requests of the document's own collaborators during a session: `Load` and `Execute` (10_state.md R12). -/
def isLoadOrExecute : Request → Bool
  | .load _ => true
  | .execute _ => true
  | .initMemory => false
  | .reset => false
  | .setRegisters _ => false
  | .readState => false

end Sys2Proof.Safety
end

