-- ==== Sys2Proof/Certificates/Slice0/Obligations.lean ====
section
/-! DEFINITION. The statements about the machine, each from a rule of the spec. `Config.zpxWrap` is opaque, so every
statement holds for both values of `ZPX_WRAP`. In every statement `+` on addresses is modulo 2^16. -/

open Sys2Proof Sys2Proof.Machine Sys2Proof.Safety

/-! ## Reset and the host's requests -/

/-- 70_reset_and_hazards.md R150, R151 and 10_state.md R34: Reset, from any state, gives every register, flag and memory
cell its value of R34, leaves `CYC` and the diagnostic stream alone, and done twice is done once. -/
def Obligations.ResetLeavesPowerUpState : Prop :=
  ∀ s : State,
    (applyReset s).pc = 0xFFFC ∧ (applyReset s).sp = 0x0100 ∧
    (applyReset s).a = 0x00 ∧ (applyReset s).x = 0x00 ∧ (applyReset s).y = 0x00 ∧
    (applyReset s).f =
      { c := false, z := false, i := false, d := false, b := false, r := false, v := false, n := false } ∧
    (∀ addr : Word, (applyReset s).memRead addr = 0x00) ∧
    (applyReset s).cyc = s.cyc ∧ (applyReset s).diag = s.diag ∧
    applyReset (applyReset s) = applyReset s

/-- The three invariants of Safety.lean hold at the model's reset state (10_state.md R34, its registers, flags and memory). -/
def Obligations.ResetStateMeetsInvariants : Prop :=
  Canonical State.reset ∧ FlagsFitAccumulator State.reset ∧ UnwrittenStateIsClear State.reset

/-- 70_reset_and_hazards.md R156: `InitMemory` sets every cell to zero, is idempotent, and is what Reset does to the
memory; it writes no register. -/
def Obligations.InitMemoryZeroesEveryCell : Prop :=
  ∀ s : State,
    (∀ addr : Word, (initMemory s).memRead addr = 0x00) ∧
    initMemory (initMemory s) = initMemory s ∧
    (applyReset s).mem = (initMemory s).mem ∧
    (initMemory s).pc = s.pc ∧ (initMemory s).sp = s.sp ∧ (initMemory s).a = s.a ∧ (initMemory s).x = s.x ∧
    (initMemory s).y = s.y ∧ (initMemory s).f = s.f ∧ (initMemory s).cyc = s.cyc ∧
    (initMemory s).diag = s.diag

/-- 70_reset_and_hazards.md R157: after `Load` every cell named holds the last byte loaded into it (the byte of a pair that no
later pair names again), a cell not named keeps its value, and nothing but memory changes. -/
def Obligations.LoadWritesNamedCellsOnly : Prop :=
  ∀ (cells : List (Word × Byte)) (s : State), Canonical s →
    Canonical (loadBytes cells s) ∧
    (∀ addr : Word, (∀ c ∈ cells, c.1 ≠ addr) → (loadBytes cells s).memRead addr = s.memRead addr) ∧
    (∀ (pre post : List (Word × Byte)) (addr : Word) (v : Byte),
      cells = pre ++ (addr, v) :: post → (∀ c ∈ post, c.1 ≠ addr) → (loadBytes cells s).memRead addr = v) ∧
    (loadBytes cells s).pc = s.pc ∧ (loadBytes cells s).sp = s.sp ∧ (loadBytes cells s).a = s.a ∧
    (loadBytes cells s).x = s.x ∧ (loadBytes cells s).y = s.y ∧ (loadBytes cells s).f = s.f ∧
    (loadBytes cells s).cyc = s.cyc ∧ (loadBytes cells s).diag = s.diag

/-- 70_reset_and_hazards.md R155, R158 (the spec's decision D10), R159, R19: `SetRegisters` of nothing changes nothing, and one
more write changes exactly the register or the one flag it names, so the last value chosen for a register or flag is the
one it holds and memory, `CYC` and the stream are never changed. `ReadState` gives `A`, `X`, `Y` and the flags in the order
Carry to Negative, where a flag written by name stands at its index, and changes nothing. -/
def Obligations.SetRegistersWritesChosenValues : Prop :=
  (∀ s : State, setRegisters [] s = s) ∧
  (∀ (ws : List RegisterWrite) (s : State) (w : Word) (v : Byte) (q : Bool),
    setRegisters (ws ++ [.pc w]) s = { setRegisters ws s with pc := w } ∧
    setRegisters (ws ++ [.sp w]) s = { setRegisters ws s with sp := w } ∧
    setRegisters (ws ++ [.a v]) s = { setRegisters ws s with a := v } ∧
    setRegisters (ws ++ [.x v]) s = { setRegisters ws s with x := v } ∧
    setRegisters (ws ++ [.y v]) s = { setRegisters ws s with y := v } ∧
    setRegisters (ws ++ [.flag .carry q]) s =
      { setRegisters ws s with f := { (setRegisters ws s).f with c := q } } ∧
    setRegisters (ws ++ [.flag .zero q]) s =
      { setRegisters ws s with f := { (setRegisters ws s).f with z := q } } ∧
    setRegisters (ws ++ [.flag .interruptDisable q]) s =
      { setRegisters ws s with f := { (setRegisters ws s).f with i := q } } ∧
    setRegisters (ws ++ [.flag .decimal q]) s =
      { setRegisters ws s with f := { (setRegisters ws s).f with d := q } } ∧
    setRegisters (ws ++ [.flag .break_ q]) s =
      { setRegisters ws s with f := { (setRegisters ws s).f with b := q } } ∧
    setRegisters (ws ++ [.flag .reserved q]) s =
      { setRegisters ws s with f := { (setRegisters ws s).f with r := q } } ∧
    setRegisters (ws ++ [.flag .overflow q]) s =
      { setRegisters ws s with f := { (setRegisters ws s).f with v := q } } ∧
    setRegisters (ws ++ [.flag .negative q]) s =
      { setRegisters ws s with f := { (setRegisters ws s).f with n := q } }) ∧
  (∀ (ws : List RegisterWrite) (s : State),
    (setRegisters ws s).mem = s.mem ∧ (setRegisters ws s).cyc = s.cyc ∧ (setRegisters ws s).diag = s.diag) ∧
  (∀ (ws : List RegisterWrite) (s : State) (q : Bool),
    (readState (setRegisters (ws ++ [.flag .carry q]) s)).flags = (readState (setRegisters ws s)).flags.set 0 q ∧
    (readState (setRegisters (ws ++ [.flag .zero q]) s)).flags = (readState (setRegisters ws s)).flags.set 1 q ∧
    (readState (setRegisters (ws ++ [.flag .interruptDisable q]) s)).flags =
      (readState (setRegisters ws s)).flags.set 2 q ∧
    (readState (setRegisters (ws ++ [.flag .decimal q]) s)).flags = (readState (setRegisters ws s)).flags.set 3 q ∧
    (readState (setRegisters (ws ++ [.flag .break_ q]) s)).flags = (readState (setRegisters ws s)).flags.set 4 q ∧
    (readState (setRegisters (ws ++ [.flag .reserved q]) s)).flags = (readState (setRegisters ws s)).flags.set 5 q ∧
    (readState (setRegisters (ws ++ [.flag .overflow q]) s)).flags = (readState (setRegisters ws s)).flags.set 6 q ∧
    (readState (setRegisters (ws ++ [.flag .negative q]) s)).flags = (readState (setRegisters ws s)).flags.set 7 q) ∧
  (∀ s : State,
    readState s =
      { a := s.a, x := s.x, y := s.y, flags := [s.f.c, s.f.z, s.f.i, s.f.d, s.f.b, s.f.r, s.f.v, s.f.n] } ∧
    serve .readState s = .next s)

/-! ## Memory and fetch -/

/-- 20_memory.md R42: `MemWrite` sets its cell and changes no other, the next `MemRead` returns the byte written, and
only `JSR` performs `MemWrite`. -/
def Obligations.MemWriteSetsOneCell : Prop :=
  (∀ (s : State) (addr : Word) (v : Byte), Canonical s →
    ∀ a : Word, (s.memWrite addr v).memRead a = if a = addr then v else s.memRead a) ∧
  (∀ s t : State, s.memRead s.pc ≠ 0x20 → step s = .next t → t.mem = s.mem)

/-- 40_execute_loop.md R84: `FetchByte` gives the byte at `PC`, advances `PC` by one modulo 2^16, changes nothing else. -/
def Obligations.FetchByteAdvancesPc : Prop :=
  ∀ s : State, s.fetchByte =
    (s.memRead s.pc, { s with pc := BitVec.ofNat 16 ((s.pc.toNat + 1) % 2 ^ 16) })

/-- 40_execute_loop.md R85: `FetchWord` gives `hi * 256 + lo`, low byte fetched first, and advances `PC` by two. -/
def Obligations.FetchWordIsLittleEndian : Prop :=
  ∀ s : State,
    s.fetchWord.1.toNat = (s.memRead (s.pc + 1)).toNat * 256 + (s.memRead s.pc).toNat ∧
    s.fetchWord.2 = { s with pc := BitVec.ofNat 16 ((s.pc.toNat + 2) % 2 ^ 16) }

/-! ## Encoding -/

/-- 40_execute_loop.md R92: the opcode byte alone selects one of the six arms; the operand is the bytes after it. -/
def Obligations.DispatchByWholeOpcodeByte : Prop :=
  ∀ s : State,
    s.fetchInstr.1 =
      if s.memRead s.pc = 0xA9 then .ldaImm (s.memRead (s.pc + 1))
      else if s.memRead s.pc = 0xA5 then .ldaZp (s.memRead (s.pc + 1))
      else if s.memRead s.pc = 0xB5 then .ldaZpX (s.memRead (s.pc + 1))
      else if s.memRead s.pc = 0xAD then
        .ldaAbs (BitVec.ofNat 16 ((s.memRead (s.pc + 2)).toNat * 256 + (s.memRead (s.pc + 1)).toNat))
      else if s.memRead s.pc = 0x20 then
        .jsrAbs (BitVec.ofNat 16 ((s.memRead (s.pc + 2)).toNat * 256 + (s.memRead (s.pc + 1)).toNat))
      else .unrecognized (s.memRead s.pc)

/-- 30_encoding.md R62: the length is a function of the opcode byte alone: two bytes for `A9`, `A5`, `B5`, three for
`AD`, `20`, one for every other value; with that many bytes at hand the decoder succeeds, with fewer it does not. -/
def Obligations.LengthFromOpcodeAlone : Prop :=
  ∀ (op : Byte) (rest : List Byte),
    (lengthOf op ≤ rest.length + 1 →
      ∃ i, decode (op :: rest) = .ok (i, rest.drop (lengthOf op - 1)) ∧ i.length = lengthOf op) ∧
    (rest.length + 1 < lengthOf op → decode (op :: rest) = .error (.missingOperand op))

/-- Decoding the encoding of any well-formed instruction, whatever bytes follow, gives it back: no bit of an operand is
dropped (30_encoding.md R60, R63, R64, R67). -/
def Obligations.DecodeOfEncode : Prop :=
  ∀ i : Instr, i.WellFormed → ∀ rest : List Byte, decode (encode i ++ rest) = .ok (i, rest)

/-- Each instruction has one encoding: what decodes is the encoding of a well-formed instruction, then the rest. -/
def Obligations.EncodeOfDecode : Prop :=
  ∀ (bytes rest : List Byte) (i : Instr),
    decode bytes = .ok (i, rest) → i.WellFormed ∧ encode i ++ rest = bytes

/-- Words written out from the spec's encodings (30_encoding.md R64, R65, R66) decode to what they stand for. -/
def Obligations.SpecWordsDecode : Prop :=
  decode [0xA9, 0x24] = .ok (.ldaImm 0x24, []) ∧
  decode [0xA5, 0x10] = .ok (.ldaZp 0x10, []) ∧
  decode [0xB5, 0x10] = .ok (.ldaZpX 0x10, []) ∧
  decode [0xAD, 0x43, 0x42] = .ok (.ldaAbs 0x4243, []) ∧
  decode [0x20, 0xCD, 0xAB] = .ok (.jsrAbs 0xABCD, []) ∧
  decode [0xEA, 0x60] = .ok (.unrecognized 0xEA, [0x60])

/-- When the bytes at `PC` decode to an instruction, a step is its meaning at the state with `PC` past its bytes; the
instruction is well formed. -/
def Obligations.StepRunsDecodedInstruction : Prop :=
  ∀ (s : State) (i : Instr) (rest : List Byte),
    decode [s.memRead s.pc, s.memRead (s.pc + 1), s.memRead (s.pc + 2)] = .ok (i, rest) →
    i.WellFormed ∧ step s = exec i { s with pc := s.pc + BitVec.ofNat 16 i.length }

/-! ## Each instruction: it completes, and with what. `exec` starts with `PC` past the instruction's bytes (log 7). -/

/-- 42_lda.md section 2: `LDA #imm8` completes in every state: `A`, Zero, Negative and `CYC` change, nothing else. -/
def Obligations.LdaImmediateCompletes : Prop :=
  ∀ (imm8 : Byte) (s : State), exec (.ldaImm imm8) s = .next
    { s with
      a := imm8
      f := { s.f with z := decide (imm8.toNat = 0), n := decide (0x80 ≤ imm8.toNat) }
      cyc := s.cyc - 2 }

/-- 42_lda.md section 2: `LDA zp` completes in every state. -/
def Obligations.LdaZeroPageCompletes : Prop :=
  ∀ (zp8 : Byte) (s : State), exec (.ldaZp zp8) s = .next
    { s with
      a := s.memRead (BitVec.ofNat 16 zp8.toNat)
      f := { s.f with
        z := decide ((s.memRead (BitVec.ofNat 16 zp8.toNat)).toNat = 0)
        n := decide (0x80 ≤ (s.memRead (BitVec.ofNat 16 zp8.toNat)).toNat) }
      cyc := s.cyc - 3 }

/-- 42_lda.md section 2: `LDA zp,X` completes in every state, for either value of `ZPX_WRAP`. -/
def Obligations.LdaZeroPageXCompletes : Prop :=
  ∀ (zp8 : Byte) (s : State), ∃ t, exec (.ldaZpX zp8) s = .next t ∧
    t = { s with
      a := t.a
      f := { s.f with z := decide (t.a.toNat = 0), n := decide (0x80 ≤ t.a.toNat) }
      cyc := s.cyc - 4 } ∧
    (Config.zpxWrap = false → t.a = s.memRead (BitVec.ofNat 16 (zp8.toNat + s.x.toNat))) ∧
    (Config.zpxWrap = true → t.a = s.memRead (BitVec.ofNat 16 ((zp8.toNat + s.x.toNat) % 256)))

/-- 42_lda.md section 2: `LDA abs` completes in every state. -/
def Obligations.LdaAbsoluteCompletes : Prop :=
  ∀ (abs16 : Word) (s : State), exec (.ldaAbs abs16) s = .next
    { s with
      a := s.memRead abs16
      f := { s.f with
        z := decide ((s.memRead abs16).toNat = 0), n := decide (0x80 ≤ (s.memRead abs16).toNat) }
      cyc := s.cyc - 4 }

/-- 43_jsr.md: `JSR abs` completes in every state: it pushes `PC - 1`, low byte at `SP`, raises `SP` by 2, and jumps;
registers and flags are unchanged. Reading the pushed bytes back rests on the memory being canonical, an invariant. -/
def Obligations.JsrCompletes : Prop :=
  ∀ (abs16 : Word) (s : State), ∃ t, exec (.jsrAbs abs16) s = .next t ∧
    t = { s with mem := t.mem, sp := s.sp + 2, pc := abs16, cyc := s.cyc - 6 } ∧
    (Canonical s →
      t.memRead s.sp = BitVec.ofNat 8 ((s.pc - 1).toNat % 256) ∧
      t.memRead (s.sp + 1) = BitVec.ofNat 8 ((s.pc - 1).toNat / 256))

/-- 60_exceptions.md section 1: an unrecognized opcode completes in every state: one event, one cycle, nothing else. The
cost 1 is the spec's decision D5; that `SP` and the flags are unchanged is its inference (R130). The stream as a field of
the state is the model's choice (log 1). -/
def Obligations.UnrecognizedCompletes : Prop :=
  ∀ (op : Byte) (s : State), exec (.unrecognized op) s = .next
    { s with cyc := s.cyc - 1, diag := s.diag ++ [op] }

/-! ## Each instruction, from its bytes in memory: the whole rule -/

/-- 42_lda.md R111. -/
def Obligations.StepLdaImmediate : Prop :=
  ∀ s : State, s.memRead s.pc = 0xA9 → step s = .next
    { s with
      pc := s.pc + 2
      a := s.memRead (s.pc + 1)
      f := { s.f with
        z := decide ((s.memRead (s.pc + 1)).toNat = 0)
        n := decide (0x80 ≤ (s.memRead (s.pc + 1)).toNat) }
      cyc := s.cyc - 2 }

/-- 42_lda.md R112: `EA` is the operand zero-extended, in `0x0000..0x00FF`. -/
def Obligations.StepLdaZeroPage : Prop :=
  ∀ s : State, s.memRead s.pc = 0xA5 →
    ∃ ea : Word, ea.toNat = (s.memRead (s.pc + 1)).toNat ∧ step s = .next
      { s with
        pc := s.pc + 2
        a := s.memRead ea
        f := { s.f with z := decide ((s.memRead ea).toNat = 0), n := decide (0x80 ≤ (s.memRead ea).toNat) }
        cyc := s.cyc - 3 }

/-- 42_lda.md R113, for either value of `ZPX_WRAP`: `EA` is the exact sum, or the sum modulo 256. -/
def Obligations.StepLdaZeroPageX : Prop :=
  ∀ s : State, s.memRead s.pc = 0xB5 →
    ∃ ea : Word,
      ea.toNat =
        (if Config.zpxWrap then ((s.memRead (s.pc + 1)).toNat + s.x.toNat) % 256
         else (s.memRead (s.pc + 1)).toNat + s.x.toNat) ∧
      step s = .next
        { s with
          pc := s.pc + 2
          a := s.memRead ea
          f := { s.f with z := decide ((s.memRead ea).toNat = 0), n := decide (0x80 ≤ (s.memRead ea).toNat) }
          cyc := s.cyc - 4 }

/-- 42_lda.md R114: `EA` is `hh * 256 + ll`. -/
def Obligations.StepLdaAbsolute : Prop :=
  ∀ s : State, s.memRead s.pc = 0xAD →
    ∃ ea : Word, ea.toNat = (s.memRead (s.pc + 2)).toNat * 256 + (s.memRead (s.pc + 1)).toNat ∧ step s = .next
      { s with
        pc := s.pc + 3
        a := s.memRead ea
        f := { s.f with z := decide ((s.memRead ea).toNat = 0), n := decide (0x80 ≤ (s.memRead ea).toNat) }
        cyc := s.cyc - 4 }

/-- 43_jsr.md R120, with `p` the address of the opcode byte: the value pushed is `p + 2`, the target is the operand as
it stood before the push, and every other cell keeps its byte. `SP` is linear modulo 2^16, as R120's pseudocode has it
(the spec's decisions D2 and D4, log 8). -/
def Obligations.StepJsr : Prop :=
  ∀ s : State, Canonical s → s.memRead s.pc = 0x20 →
    ∃ t : State, step s = .next t ∧
      t.pc.toNat = (s.memRead (s.pc + 2)).toNat * 256 + (s.memRead (s.pc + 1)).toNat ∧
      t.sp = s.sp + 2 ∧
      t.memRead s.sp = BitVec.ofNat 8 ((s.pc + 2).toNat % 256) ∧
      t.memRead (s.sp + 1) = BitVec.ofNat 8 ((s.pc + 2).toNat / 256) ∧
      (∀ addr : Word, addr ≠ s.sp → addr ≠ s.sp + 1 → t.memRead addr = s.memRead addr) ∧
      t.a = s.a ∧ t.x = s.x ∧ t.y = s.y ∧ t.f = s.f ∧ t.diag = s.diag ∧ t.cyc = s.cyc - 6

/-- 60_exceptions.md R130: any byte but the five is one byte long, is reported, and changes only `PC` and `CYC`. The cost
1 is the spec's decision D5; the unchanged `SP` and flags are its inference; the event list is the model's field (log 1). -/
def Obligations.StepUnrecognized : Prop :=
  ∀ s : State, s.memRead s.pc ∉ ([0xA9, 0xA5, 0xB5, 0xAD, 0x20] : List Byte) → step s = .next
    { s with pc := s.pc + 1, cyc := s.cyc - 1, diag := s.diag ++ [s.memRead s.pc] }

/-! ## Flags and addressing -/

/-- 42_lda.md R110: the outcome table of `SetZN`; the six other flags, and everything else, are left as they were. -/
def Obligations.SetZnOutcomes : Prop :=
  ∀ (v : Byte) (s : State),
    s.setZN v = { s with f := { s.f with z := (s.setZN v).f.z, n := (s.setZN v).f.n } } ∧
    (v.toNat = 0 → (s.setZN v).f.z = true ∧ (s.setZN v).f.n = false) ∧
    (0x01 ≤ v.toNat ∧ v.toNat ≤ 0x7F → (s.setZN v).f.z = false ∧ (s.setZN v).f.n = false) ∧
    (0x80 ≤ v.toNat → (s.setZN v).f.z = false ∧ (s.setZN v).f.n = true)

/-- 41_addressing_modes.md, zero-page,X: for each value of `ZPX_WRAP` the address is the sum or the sum modulo 256; the
two differ exactly when the sum is at least `0x100`; and no address is out of range. -/
def Obligations.ZeroPageXAddress : Prop :=
  ∀ z x : Byte,
    (zpxEA false z x).toNat = z.toNat + x.toNat ∧
    (zpxEA true z x).toNat = (z.toNat + x.toNat) % 256 ∧
    (zpxEA false z x = zpxEA true z x ↔ z.toNat + x.toNat < 0x100) ∧
    (zpxEA false z x).toNat ≤ 0x01FE ∧ (zpxEA true z x).toNat ≤ 0x00FF

/-! ## Frames -/

/-- What the four forms of `LDA` leave unchanged: every register but `A`, every flag but Zero and Negative, the
diagnostic stream, and every byte of memory. -/
def Obligations.LoadFormsFrame : Prop :=
  ∀ (i : Instr) (s t : State),
    (∃ v, i = .ldaImm v) ∨ (∃ z, i = .ldaZp z) ∨ (∃ z, i = .ldaZpX z) ∨ (∃ w, i = .ldaAbs w) →
    exec i s = .next t →
    t.x = s.x ∧ t.y = s.y ∧ t.sp = s.sp ∧
    t.f.c = s.f.c ∧ t.f.i = s.f.i ∧ t.f.d = s.f.d ∧ t.f.b = s.f.b ∧ t.f.r = s.f.r ∧ t.f.v = s.f.v ∧
    t.diag = s.diag ∧ ∀ addr : Word, t.memRead addr = s.memRead addr

/-- What `JSR` leaves unchanged: `A`, `X`, `Y`, all flags, the stream, and every byte outside the two cells of the push,
at `SP` and `SP + 1` of the state before. -/
def Obligations.JsrFrame : Prop :=
  ∀ (abs16 : Word) (s t : State), Canonical s → exec (.jsrAbs abs16) s = .next t →
    t.a = s.a ∧ t.x = s.x ∧ t.y = s.y ∧ t.f = s.f ∧ t.diag = s.diag ∧
    ∀ addr : Word, addr ≠ s.sp → addr ≠ s.sp + 1 → t.memRead addr = s.memRead addr

/-- What an unrecognized opcode leaves unchanged: every register and flag and every byte of memory. -/
def Obligations.UnrecognizedFrame : Prop :=
  ∀ (op : Byte) (s t : State), exec (.unrecognized op) s = .next t →
    t.a = s.a ∧ t.x = s.x ∧ t.y = s.y ∧ t.sp = s.sp ∧ t.f = s.f ∧
    ∀ addr : Word, t.memRead addr = s.memRead addr

/-! ## The whole machine -/

/-- 40_execute_loop.md R87 and R89 (the cost 1 of an unrecognized opcode is the spec's decision D5; R89 is its
inference): every state has a next state, and a Step charges the table's total for the opcode byte, from 1 to 6. -/
def Obligations.EveryStepCompletesAndCharges : Prop :=
  ∀ s : State, ∃ t : State, step s = .next t ∧
    t.cyc = s.cyc - (cycleCost (s.memRead s.pc) : Int) ∧
    1 ≤ cycleCost (s.memRead s.pc) ∧ cycleCost (s.memRead s.pc) ≤ 6

/-- 10_state.md R14, R16 (the wrap is the spec's decisions D2, D3): `PC` after a Step is the operand for `JSR` and
otherwise past the instruction's bytes; `SP` moves by exactly 2, for `JSR` only. -/
def Obligations.PcAndSpAfterStep : Prop :=
  ∀ s t : State, step s = .next t →
    (s.memRead s.pc = 0x20 →
      t.pc.toNat = (s.memRead (s.pc + 2)).toNat * 256 + (s.memRead (s.pc + 1)).toNat ∧ t.sp = s.sp + 2) ∧
    (s.memRead s.pc ≠ 0x20 →
      t.pc.toNat = (s.pc.toNat + lengthOf (s.memRead s.pc)) % 2 ^ 16 ∧ t.sp = s.sp)

/-- Invariant: every Step keeps the memory in canonical form. -/
def Obligations.StepKeepsMemoryCanonical : Prop :=
  ∀ s t : State, Canonical s → step s = .next t → Canonical t

/-- Invariant: every Step keeps Negative a copy of bit 7 of `A`, and Zero set only while `A` is zero; so the two flags
are never both set (42_lda.md R110). -/
def Obligations.StepKeepsFlagsFittingAccumulator : Prop :=
  ∀ s t : State, FlagsFitAccumulator s → step s = .next t →
    FlagsFitAccumulator t ∧ ¬ (t.f.z = true ∧ t.f.n = true)

/-- 10_state.md R12, R13, R18: no instruction writes `X`, `Y` or a flag other than Zero and Negative, and only `LDA`
writes a flag or `A`. -/
def Obligations.OnlyLoadsWriteAAndFlags : Prop :=
  ∀ s t : State, step s = .next t →
    t.x = s.x ∧ t.y = s.y ∧
    t.f.c = s.f.c ∧ t.f.i = s.f.i ∧ t.f.d = s.f.d ∧ t.f.b = s.f.b ∧ t.f.r = s.f.r ∧ t.f.v = s.f.v ∧
    (s.memRead s.pc ∉ ([0xA9, 0xA5, 0xB5, 0xAD] : List Byte) → t.a = s.a ∧ t.f = s.f)

/-- 10_state.md R11, R13, R18, R29, R30: no instruction reads `A`, `Y`, a flag, `CYC` or the diagnostic stream. Two
states that differ only there step to states that agree on `PC`, `SP`, `X` and memory, charge alike, report alike, and,
where `A` or a flag is written, write it alike. -/
def Obligations.StepIgnoresAYFlagsCyc : Prop :=
  ∀ (s t u : State) (a y : Byte) (f : Flags) (cyc : Int) (diag : List Byte),
    step s = .next t → step { s with a := a, y := y, f := f, cyc := cyc, diag := diag } = .next u →
    u.pc = t.pc ∧ u.sp = t.sp ∧ u.x = t.x ∧ u.mem = t.mem ∧
    u.cyc - cyc = t.cyc - s.cyc ∧
    (∃ events, u.diag = diag ++ events ∧ t.diag = s.diag ++ events) ∧
    (s.memRead s.pc ∈ ([0xA9, 0xA5, 0xB5, 0xAD] : List Byte) →
      u.a = t.a ∧ u.f.z = t.f.z ∧ u.f.n = t.f.n)

/-- 20_memory.md R56 (the spec's inference): a Step changes no cell outside its write reach, the two cells `SP` and
`SP + 1` of a `JSR`. -/
def Obligations.StepWritesOnlyItsReach : Prop :=
  ∀ s t : State, Canonical s → step s = .next t →
    ∀ addr : Word, addr ∉ writeReach s → t.memRead addr = s.memRead addr

/-- 20_memory.md R46, R56 (the spec's inference): a Step reads no cell outside its read reach. Another byte in such a
cell changes no register, flag, budget or event, and leaves every other cell as it would have been; the cell itself keeps
that byte unless the Step writes it. -/
def Obligations.StepReadsOnlyItsReach : Prop :=
  ∀ (s t u : State) (cell : Word) (v : Byte), Canonical s → cell ∉ readReach s →
    step s = .next t → step (s.memWrite cell v) = .next u →
    u.pc = t.pc ∧ u.sp = t.sp ∧ u.a = t.a ∧ u.x = t.x ∧ u.y = t.y ∧ u.f = t.f ∧ u.cyc = t.cyc ∧
    u.diag = t.diag ∧
    (∀ addr : Word, addr ≠ cell → u.memRead addr = t.memRead addr) ∧
    u.memRead cell = if cell ∈ writeReach s then t.memRead cell else v

/-- 20_memory.md R53, 43_jsr.md R121 (the spec's decisions D8, D17): a `JSR` onto its own push runs what it pushed: the
next Step's opcode and operand bytes are the pushed bytes, and the target was read before the push. -/
def Obligations.FetchSeesThePush : Prop :=
  ∀ s t : State, Canonical s → s.memRead s.pc = 0x20 → step s = .next t →
    operand16At s = s.sp →
    t.pc = s.sp ∧ opcodeAt t = loByte (s.pc + 2) ∧ operand8At t = hiByte (s.pc + 2)

/-- 60_exceptions.md R130, R134 (the event list is the model's field, log 1): in any number of Steps the events emitted are
the unrecognized opcode bytes met, in program order, appended to what was there. -/
def Obligations.EventsAreTheUnrecognizedOpcodes : Prop :=
  ∀ (n : Nat) (s t : State), steps n s = .next t → t.diag = s.diag ++ reportedOver n s

/-- 10_state.md R17, 43_jsr.md R122 (linear `SP` is the spec's decision D2): after any number of Steps `SP` has moved up by
twice the number of `JSR`s executed, modulo 2^16 and never within a page. -/
def Obligations.StackPointerCountsJsrs : Prop :=
  ∀ (n : Nat) (s t : State), steps n s = .next t →
    t.sp.toNat = (s.sp.toNat + 2 * jsrCount n s) % 2 ^ 16

/-! ## Runs -/

/-- 40_execute_loop.md R82: `while CYC > 0 do Step`. A budget of zero or less executes nothing; above zero a run is one
whole Step, then the loop again with what remains. -/
def Obligations.ExecuteIsTheLoop : Prop :=
  ∀ (budget : Int) (s : State),
    (budget ≤ 0 → execute budget s = .next { s with cyc := budget }) ∧
    (0 < budget → ∃ t, step { s with cyc := budget } = .next t ∧ execute budget s = execute t.cyc t)

/-- 40_execute_loop.md R88: the run executes exactly the least number `n` of Steps that spends the budget; its final state
is the state after them, with `CYC` the budget less what they were charged, from -5 to 0 for a positive budget. What a Step is charged is R87's
table, whose last row (1 for an unrecognized opcode) is the spec's decision D5. -/
def Obligations.ExecuteEndsWhenBudgetIsSpent : Prop :=
  ∀ (budget : Int) (s : State), ∃ (n : Nat) (t : State),
    execute budget s = .next t ∧ steps n { s with cyc := budget } = .next t ∧
    budget - (chargedOver n { s with cyc := budget } : Int) ≤ 0 ∧
    (∀ m < n, 0 < budget - (chargedOver m { s with cyc := budget } : Int)) ∧
    t.cyc = budget - (chargedOver n { s with cyc := budget } : Int) ∧
    (0 < budget → -5 ≤ t.cyc ∧ t.cyc ≤ 0) ∧
    (budget ≤ 0 → n = 0 ∧ t.cyc = budget)

/-- 40_execute_loop.md R89 (the spec's inference): a run with a positive budget `B` ends after at least `ceil(B / 6)` and
at most `B` instructions. -/
def Obligations.ExecuteCountIsBounded : Prop :=
  ∀ (budget : Nat) (s : State), 0 < budget → ∃ (n : Nat) (t : State),
    execute (budget : Int) s = .next t ∧ steps n { s with cyc := (budget : Int) } = .next t ∧
    budget ≤ 6 * n ∧ n ≤ budget

/-- 40_execute_loop.md R91 and 60_exceptions.md R143 (the spec's decision D9 and inference): each `Execute` loads `CYC`
afresh, so an overdraft is discarded, and `Execute(1)` is a single step. -/
def Obligations.ExecuteReloadsBudget : Prop :=
  ∀ (budget overdraft : Int) (s : State),
    execute budget { s with cyc := overdraft } = execute budget s ∧
    execute 1 s = step { s with cyc := 1 }

/-- 10_state.md R12, R20 (the spec's inference): after a Reset and any sequence of `Load` and `Execute` requests, `X`,
`Y` and the six unwritten flags are still clear, the memory is canonical and the flags fit `A`; the sequence always
completes. -/
def Obligations.SessionFromResetKeepsInvariants : Prop :=
  ∀ (qs : List Request) (s : State), (∀ q ∈ qs, isLoadOrExecute q = true) →
    ∃ t, serveAll (.reset :: qs) s = .next t ∧
      UnwrittenStateIsClear t ∧ Canonical t ∧ FlagsFitAccumulator t
end

