-- ==== Sys2Proof/Laws/State.lean ====
section
/-! SUPPORT. What each register update does to each field, so that no later proof unfolds one. -/

namespace Sys2Proof.Machine

section setPc_fields
variable (s : State) (u : Word)

@[simp] theorem State.setPc_pc : (s.setPc u).pc = u := rfl
@[simp] theorem State.setPc_sp : (s.setPc u).sp = s.sp := rfl
@[simp] theorem State.setPc_a : (s.setPc u).a = s.a := rfl
@[simp] theorem State.setPc_x : (s.setPc u).x = s.x := rfl
@[simp] theorem State.setPc_y : (s.setPc u).y = s.y := rfl
@[simp] theorem State.setPc_f : (s.setPc u).f = s.f := rfl
@[simp] theorem State.setPc_mem : (s.setPc u).mem = s.mem := rfl
@[simp] theorem State.setPc_cyc : (s.setPc u).cyc = s.cyc := rfl
@[simp] theorem State.setPc_diag : (s.setPc u).diag = s.diag := rfl
@[simp] theorem State.setPc_memRead (b : Word) : (s.setPc u).memRead b = s.memRead b := rfl

end setPc_fields

section setSp_fields
variable (s : State) (u : Word)

@[simp] theorem State.setSp_pc : (s.setSp u).pc = s.pc := rfl
@[simp] theorem State.setSp_sp : (s.setSp u).sp = u := rfl
@[simp] theorem State.setSp_a : (s.setSp u).a = s.a := rfl
@[simp] theorem State.setSp_x : (s.setSp u).x = s.x := rfl
@[simp] theorem State.setSp_y : (s.setSp u).y = s.y := rfl
@[simp] theorem State.setSp_f : (s.setSp u).f = s.f := rfl
@[simp] theorem State.setSp_mem : (s.setSp u).mem = s.mem := rfl
@[simp] theorem State.setSp_cyc : (s.setSp u).cyc = s.cyc := rfl
@[simp] theorem State.setSp_diag : (s.setSp u).diag = s.diag := rfl
@[simp] theorem State.setSp_memRead (b : Word) : (s.setSp u).memRead b = s.memRead b := rfl

end setSp_fields

section setA_fields
variable (s : State) (u : Byte)

@[simp] theorem State.setA_pc : (s.setA u).pc = s.pc := rfl
@[simp] theorem State.setA_sp : (s.setA u).sp = s.sp := rfl
@[simp] theorem State.setA_a : (s.setA u).a = u := rfl
@[simp] theorem State.setA_x : (s.setA u).x = s.x := rfl
@[simp] theorem State.setA_y : (s.setA u).y = s.y := rfl
@[simp] theorem State.setA_f : (s.setA u).f = s.f := rfl
@[simp] theorem State.setA_mem : (s.setA u).mem = s.mem := rfl
@[simp] theorem State.setA_cyc : (s.setA u).cyc = s.cyc := rfl
@[simp] theorem State.setA_diag : (s.setA u).diag = s.diag := rfl
@[simp] theorem State.setA_memRead (b : Word) : (s.setA u).memRead b = s.memRead b := rfl

end setA_fields

section setX_fields
variable (s : State) (u : Byte)

@[simp] theorem State.setX_pc : (s.setX u).pc = s.pc := rfl
@[simp] theorem State.setX_sp : (s.setX u).sp = s.sp := rfl
@[simp] theorem State.setX_a : (s.setX u).a = s.a := rfl
@[simp] theorem State.setX_x : (s.setX u).x = u := rfl
@[simp] theorem State.setX_y : (s.setX u).y = s.y := rfl
@[simp] theorem State.setX_f : (s.setX u).f = s.f := rfl
@[simp] theorem State.setX_mem : (s.setX u).mem = s.mem := rfl
@[simp] theorem State.setX_cyc : (s.setX u).cyc = s.cyc := rfl
@[simp] theorem State.setX_diag : (s.setX u).diag = s.diag := rfl
@[simp] theorem State.setX_memRead (b : Word) : (s.setX u).memRead b = s.memRead b := rfl

end setX_fields

section setY_fields
variable (s : State) (u : Byte)

@[simp] theorem State.setY_pc : (s.setY u).pc = s.pc := rfl
@[simp] theorem State.setY_sp : (s.setY u).sp = s.sp := rfl
@[simp] theorem State.setY_a : (s.setY u).a = s.a := rfl
@[simp] theorem State.setY_x : (s.setY u).x = s.x := rfl
@[simp] theorem State.setY_y : (s.setY u).y = u := rfl
@[simp] theorem State.setY_f : (s.setY u).f = s.f := rfl
@[simp] theorem State.setY_mem : (s.setY u).mem = s.mem := rfl
@[simp] theorem State.setY_cyc : (s.setY u).cyc = s.cyc := rfl
@[simp] theorem State.setY_diag : (s.setY u).diag = s.diag := rfl
@[simp] theorem State.setY_memRead (b : Word) : (s.setY u).memRead b = s.memRead b := rfl

end setY_fields

section setCyc_fields
variable (s : State) (u : Int)

@[simp] theorem State.setCyc_pc : (s.setCyc u).pc = s.pc := rfl
@[simp] theorem State.setCyc_sp : (s.setCyc u).sp = s.sp := rfl
@[simp] theorem State.setCyc_a : (s.setCyc u).a = s.a := rfl
@[simp] theorem State.setCyc_x : (s.setCyc u).x = s.x := rfl
@[simp] theorem State.setCyc_y : (s.setCyc u).y = s.y := rfl
@[simp] theorem State.setCyc_f : (s.setCyc u).f = s.f := rfl
@[simp] theorem State.setCyc_mem : (s.setCyc u).mem = s.mem := rfl
@[simp] theorem State.setCyc_cyc : (s.setCyc u).cyc = u := rfl
@[simp] theorem State.setCyc_diag : (s.setCyc u).diag = s.diag := rfl
@[simp] theorem State.setCyc_memRead (b : Word) : (s.setCyc u).memRead b = s.memRead b := rfl

end setCyc_fields

section charge_fields
variable (s : State) (u : Nat)

@[simp] theorem State.charge_pc : (s.charge u).pc = s.pc := rfl
@[simp] theorem State.charge_sp : (s.charge u).sp = s.sp := rfl
@[simp] theorem State.charge_a : (s.charge u).a = s.a := rfl
@[simp] theorem State.charge_x : (s.charge u).x = s.x := rfl
@[simp] theorem State.charge_y : (s.charge u).y = s.y := rfl
@[simp] theorem State.charge_f : (s.charge u).f = s.f := rfl
@[simp] theorem State.charge_mem : (s.charge u).mem = s.mem := rfl
@[simp] theorem State.charge_cyc : (s.charge u).cyc = s.cyc - (u : Int) := rfl
@[simp] theorem State.charge_diag : (s.charge u).diag = s.diag := rfl
@[simp] theorem State.charge_memRead (b : Word) : (s.charge u).memRead b = s.memRead b := rfl

end charge_fields

section report_fields
variable (s : State) (u : Byte)

@[simp] theorem State.report_pc : (s.report u).pc = s.pc := rfl
@[simp] theorem State.report_sp : (s.report u).sp = s.sp := rfl
@[simp] theorem State.report_a : (s.report u).a = s.a := rfl
@[simp] theorem State.report_x : (s.report u).x = s.x := rfl
@[simp] theorem State.report_y : (s.report u).y = s.y := rfl
@[simp] theorem State.report_f : (s.report u).f = s.f := rfl
@[simp] theorem State.report_mem : (s.report u).mem = s.mem := rfl
@[simp] theorem State.report_cyc : (s.report u).cyc = s.cyc := rfl
@[simp] theorem State.report_diag : (s.report u).diag = s.diag ++ [u] := rfl
@[simp] theorem State.report_memRead (b : Word) : (s.report u).memRead b = s.memRead b := rfl

end report_fields

section setZN_fields
variable (s : State) (u : Byte)

@[simp] theorem State.setZN_pc : (s.setZN u).pc = s.pc := rfl
@[simp] theorem State.setZN_sp : (s.setZN u).sp = s.sp := rfl
@[simp] theorem State.setZN_a : (s.setZN u).a = s.a := rfl
@[simp] theorem State.setZN_x : (s.setZN u).x = s.x := rfl
@[simp] theorem State.setZN_y : (s.setZN u).y = s.y := rfl
@[simp] theorem State.setZN_f : (s.setZN u).f = { s.f with z := u == 0, n := u.getLsbD 7 } := rfl
@[simp] theorem State.setZN_mem : (s.setZN u).mem = s.mem := rfl
@[simp] theorem State.setZN_cyc : (s.setZN u).cyc = s.cyc := rfl
@[simp] theorem State.setZN_diag : (s.setZN u).diag = s.diag := rfl
@[simp] theorem State.setZN_memRead (b : Word) : (s.setZN u).memRead b = s.memRead b := rfl

end setZN_fields

section memWrite_fields
variable (s : State) (a : Word) (u : Byte)

@[simp] theorem State.memWrite_pc : (s.memWrite a u).pc = s.pc := rfl
@[simp] theorem State.memWrite_sp : (s.memWrite a u).sp = s.sp := rfl
@[simp] theorem State.memWrite_a : (s.memWrite a u).a = s.a := rfl
@[simp] theorem State.memWrite_x : (s.memWrite a u).x = s.x := rfl
@[simp] theorem State.memWrite_y : (s.memWrite a u).y = s.y := rfl
@[simp] theorem State.memWrite_f : (s.memWrite a u).f = s.f := rfl
@[simp] theorem State.memWrite_mem : (s.memWrite a u).mem = Memory.write s.mem a.toNat u := rfl
@[simp] theorem State.memWrite_cyc : (s.memWrite a u).cyc = s.cyc := rfl
@[simp] theorem State.memWrite_diag : (s.memWrite a u).diag = s.diag := rfl

end memWrite_fields

section push_fields
variable (s : State) (u : Word)

@[simp] theorem State.push_pc : (s.push u).pc = s.pc := rfl
@[simp] theorem State.push_sp : (s.push u).sp = s.sp + 2 := rfl
@[simp] theorem State.push_a : (s.push u).a = s.a := rfl
@[simp] theorem State.push_x : (s.push u).x = s.x := rfl
@[simp] theorem State.push_y : (s.push u).y = s.y := rfl
@[simp] theorem State.push_f : (s.push u).f = s.f := rfl
@[simp] theorem State.push_mem : (s.push u).mem =
    Memory.write (Memory.write s.mem s.sp.toNat (loByte u)) (s.sp + 1).toNat (hiByte u) := rfl
@[simp] theorem State.push_cyc : (s.push u).cyc = s.cyc := rfl
@[simp] theorem State.push_diag : (s.push u).diag = s.diag := rfl

end push_fields

section initMemory_fields
variable (s : State)

@[simp] theorem initMemory_pc : (initMemory s).pc = s.pc := rfl
@[simp] theorem initMemory_sp : (initMemory s).sp = s.sp := rfl
@[simp] theorem initMemory_a : (initMemory s).a = s.a := rfl
@[simp] theorem initMemory_x : (initMemory s).x = s.x := rfl
@[simp] theorem initMemory_y : (initMemory s).y = s.y := rfl
@[simp] theorem initMemory_f : (initMemory s).f = s.f := rfl
@[simp] theorem initMemory_mem : (initMemory s).mem = [] := rfl
@[simp] theorem initMemory_cyc : (initMemory s).cyc = s.cyc := rfl
@[simp] theorem initMemory_diag : (initMemory s).diag = s.diag := rfl

end initMemory_fields

section applyReset_fields
variable (s : State)

@[simp] theorem applyReset_pc : (applyReset s).pc = 0xFFFC := rfl
@[simp] theorem applyReset_sp : (applyReset s).sp = 0x0100 := rfl
@[simp] theorem applyReset_a : (applyReset s).a = 0 := rfl
@[simp] theorem applyReset_x : (applyReset s).x = 0 := rfl
@[simp] theorem applyReset_y : (applyReset s).y = 0 := rfl
@[simp] theorem applyReset_f : (applyReset s).f = Flags.clear := rfl
@[simp] theorem applyReset_mem : (applyReset s).mem = [] := rfl
@[simp] theorem applyReset_cyc : (applyReset s).cyc = s.cyc := rfl
@[simp] theorem applyReset_diag : (applyReset s).diag = s.diag := rfl

end applyReset_fields

end Sys2Proof.Machine
end

