-- ==== Sys2Proof/Laws/Decode.lean ====
section
/-! SUPPORT. The byte halves of a 16-bit value, and the opcode map one opcode at a time. -/

namespace Sys2Proof

@[simp] theorem wordOf_lo_hi (w : Word) : wordOf (loByte w) (hiByte w) = w := by
  apply BitVec.eq_of_getLsbD_eq
  intro i hi
  simp only [wordOf, loByte, hiByte, BitVec.getLsbD_append, BitVec.getLsbD_extractLsb']
  by_cases h : i < 8
  · simp [h]
  · simp [h, show i - 8 < 8 by omega, show 8 + (i - 8) = i by omega]

@[simp] theorem loByte_wordOf (lo hi : Byte) : loByte (wordOf lo hi) = lo := by
  apply BitVec.eq_of_getLsbD_eq
  intro i hi'
  simp only [wordOf, loByte, BitVec.getLsbD_extractLsb', BitVec.getLsbD_append]
  simp [hi']

@[simp] theorem hiByte_wordOf (lo hi : Byte) : hiByte (wordOf lo hi) = hi := by
  apply BitVec.eq_of_getLsbD_eq
  intro i hi'
  simp only [wordOf, hiByte, BitVec.getLsbD_extractLsb', BitVec.getLsbD_append]
  simp [hi']

theorem toNat_wordOf (lo hi : Byte) : (wordOf lo hi).toNat = hi.toNat * 256 + lo.toNat := by
  simp only [wordOf, BitVec.toNat_append, Nat.shiftLeft_eq]
  rw [Nat.mul_comm, ← Nat.two_pow_add_eq_or_of_lt lo.isLt, Nat.mul_comm]

@[simp] theorem opForm_A9 : opForm 0xA9 = .op2 .ldaImm := rfl
@[simp] theorem opForm_A5 : opForm 0xA5 = .op2 .ldaZp := rfl
@[simp] theorem opForm_B5 : opForm 0xB5 = .op2 .ldaZpX := rfl
@[simp] theorem opForm_AD : opForm 0xAD = .op3 .ldaAbs := rfl
@[simp] theorem opForm_20 : opForm 0x20 = .op3 .jsrAbs := rfl

/-- Any other opcode byte stands alone. -/
theorem opForm_other {op : Byte} (h1 : op ≠ 0xA9) (h2 : op ≠ 0xA5) (h3 : op ≠ 0xB5) (h4 : op ≠ 0xAD)
    (h5 : op ≠ 0x20) : opForm op = .op1 (.unrecognized op) := by
  rw [opForm, if_neg h1, if_neg h2, if_neg h3, if_neg h4, if_neg h5]

/-- Decoding a sequence that begins with any other opcode byte takes that byte alone. -/
theorem decode_other {op : Byte} (h1 : op ≠ 0xA9) (h2 : op ≠ 0xA5) (h3 : op ≠ 0xB5) (h4 : op ≠ 0xAD)
    (h5 : op ≠ 0x20) (rest : List Byte) : decode (op :: rest) = .ok (.unrecognized op, rest) := by
  simp only [decode]
  rw [opForm_other h1 h2 h3 h4 h5]

/-- The six cases of the opcode map. -/
theorem opcode_cases (op : Byte) :
    op = 0xA9 ∨ op = 0xA5 ∨ op = 0xB5 ∨ op = 0xAD ∨ op = 0x20 ∨
      (op ≠ 0xA9 ∧ op ≠ 0xA5 ∧ op ≠ 0xB5 ∧ op ≠ 0xAD ∧ op ≠ 0x20) := by
  tauto

theorem wf_unrecognized {op : Byte} :
    (Instr.unrecognized op).WellFormed ↔
      op ≠ 0xA9 ∧ op ≠ 0xA5 ∧ op ≠ 0xB5 ∧ op ≠ 0xAD ∧ op ≠ 0x20 := by
  simp [Instr.WellFormed, Instr.wf, recognizedOpcodes]

end Sys2Proof
end

