-- ==== Sys2Proof/Laws/Memory.lean ====
section
/-! SUPPORT. The laws of the memory list: every write keeps the canonical form, a read sees the write to its own address
and no other, and two canonical memories that read alike are equal. -/

namespace Sys2Proof.Machine

theorem Memory.wfFrom_cons {low k : Nat} {v : Byte} {m : Memory} :
    Memory.wfFrom low ((k, v) :: m) = true ↔ low ≤ k ∧ k < 0x10000 ∧ v ≠ 0 ∧ Memory.wfFrom (k + 1) m = true := by
  simp [Memory.wfFrom, and_assoc]

theorem Memory.wfFrom_mono {low low' : Nat} (hle : low' ≤ low) :
    ∀ {m : Memory}, Memory.wfFrom low m = true → Memory.wfFrom low' m = true
  | [], _ => rfl
  | (_, _) :: _, h => by
    rw [Memory.wfFrom_cons] at h ⊢
    exact ⟨hle.trans h.1, h.2⟩

/-- Below the first address of a canonical memory, every cell reads as `0x00`. -/
theorem Memory.read_of_lt {low : Nat} {m : Memory} (h : Memory.wfFrom low m = true) {a : Nat} (ha : a < low) :
    Memory.read m a = 0 := by
  cases m with
  | nil => rfl
  | cons c m =>
    obtain ⟨k, v⟩ := c
    have hk := (Memory.wfFrom_cons.1 h).1
    simp only [Memory.read]
    rw [if_neg (by omega), if_neg (by omega)]

theorem Memory.cell_wfFrom {low a : Nat} {v : Byte} {m : Memory} (hlow : low ≤ a) (ha : a < 0x10000)
    (h : Memory.wfFrom (a + 1) m = true) : Memory.wfFrom low (Memory.cell a v m) = true := by
  unfold Memory.cell
  split
  · exact Memory.wfFrom_mono (by omega) h
  · exact Memory.wfFrom_cons.2 ⟨hlow, ha, by assumption, h⟩

theorem Memory.write_wfFrom {a : Nat} (v : Byte) (ha : a < 0x10000) :
    ∀ {m : Memory} {low : Nat}, low ≤ a → Memory.wfFrom low m = true →
      Memory.wfFrom low (Memory.write m a v) = true
  | [], _, hlow, _ => Memory.cell_wfFrom hlow ha rfl
  | (k, w) :: m, low, hlow, h => by
    obtain ⟨h1, h2, h3, h4⟩ := Memory.wfFrom_cons.1 h
    simp only [Memory.write]
    split
    · exact Memory.wfFrom_cons.2 ⟨h1, h2, h3, Memory.write_wfFrom v ha (by omega) h4⟩
    · split
      · exact Memory.cell_wfFrom hlow ha (by subst_vars; exact h4)
      · exact Memory.cell_wfFrom hlow ha (Memory.wfFrom_cons.2 ⟨by omega, h2, h3, h4⟩)

/-- A write keeps the canonical form. -/
theorem Memory.write_wf {m : Memory} (h : m.wf = true) {a : Nat} (ha : a < 0x10000) (v : Byte) :
    (Memory.write m a v).wf = true :=
  Memory.write_wfFrom v ha (Nat.zero_le a) h

theorem Memory.read_cell {low a : Nat} {v : Byte} {m : Memory} (h : Memory.wfFrom low m = true) (ha : a < low)
    (b : Nat) : Memory.read (Memory.cell a v m) b = if b = a then v else Memory.read m b := by
  unfold Memory.cell
  split
  · next hv =>
    split
    · next hb => rw [hb, hv, Memory.read_of_lt h ha]
    · rfl
  · simp only [Memory.read]
    by_cases hab : a < b
    · rw [if_pos hab, if_neg (by omega)]
    · by_cases hba : b = a
      · rw [if_neg hab, if_pos hba.symm, if_pos hba]
      · rw [if_neg hab, if_neg (Ne.symm hba), if_neg hba, Memory.read_of_lt h (by omega)]

theorem Memory.read_write_from {a : Nat} (v : Byte) (b : Nat) :
    ∀ {m : Memory} {low : Nat}, Memory.wfFrom low m = true →
      Memory.read (Memory.write m a v) b = if b = a then v else Memory.read m b
  | [], _, _ => Memory.read_cell (low := a + 1) rfl (by omega) b
  | (k, w) :: m, _, h => by
    obtain ⟨_, h2, h3, h4⟩ := Memory.wfFrom_cons.1 h
    simp only [Memory.write]
    split
    · next hka =>
      simp only [Memory.read, Memory.read_write_from v b h4]
      split_ifs <;> first | rfl | omega
    · split
      · next hka =>
        rw [Memory.read_cell h4 (by omega) b]
        simp only [Memory.read]
        by_cases hb : b = a
        · rw [if_pos hb, if_pos hb]
        · rw [if_neg hb, if_neg hb]
          by_cases hkb : k < b
          · rw [if_pos hkb]
          · rw [if_neg hkb, if_neg (by omega), Memory.read_of_lt h4 (by omega)]
      · exact Memory.read_cell (low := k) (Memory.wfFrom_cons.2 ⟨le_rfl, h2, h3, h4⟩) (by omega) b

/-- A read after a write, at the address written and at every other. -/
theorem Memory.read_write {m : Memory} (h : m.wf = true) (a : Nat) (v : Byte) (b : Nat) :
    Memory.read (Memory.write m a v) b = if b = a then v else Memory.read m b :=
  Memory.read_write_from v b h

/-- The memory of the state after Reset is canonical. -/
theorem State.reset_mem_wf : State.reset.mem.wf = true := rfl

/-- A `MemWrite` keeps the canonical form. -/
theorem State.memWrite_wf {s : State} (h : s.mem.wf = true) (a : Word) (v : Byte) :
    (s.memWrite a v).mem.wf = true :=
  Memory.write_wf h a.isLt v

/-- What a byte reads as after a `MemWrite`. -/
theorem State.memRead_memWrite {s : State} (h : s.mem.wf = true) (a : Word) (v : Byte) (b : Word) :
    (s.memWrite a v).memRead b = if b = a then v else s.memRead b := by
  simp only [State.memRead, State.memWrite_mem, Memory.read_write h, BitVec.toNat_inj]

/-- A push keeps the canonical form. -/
theorem State.push_wf {s : State} (h : s.mem.wf = true) (r : Word) : (s.push r).mem.wf = true :=
  State.memWrite_wf (s := s.memWrite s.sp (loByte r)) (State.memWrite_wf h _ _) _ _

/-- What a byte reads as after a push. -/
theorem State.memRead_push {s : State} (h : s.mem.wf = true) (r : Word) (b : Word) :
    (s.push r).memRead b =
      if b = s.sp + 1 then hiByte r else if b = s.sp then loByte r else s.memRead b := by
  have h1 := State.memWrite_wf h s.sp (loByte r)
  exact (State.memRead_memWrite h1 (s.sp + 1) (hiByte r) b).trans
    (by rw [State.memRead_memWrite h])

/-- Storing bytes keeps the canonical form. -/
theorem State.storeBytes_wf : ∀ (vs : List Byte) (addr : Word) {s : State}, s.mem.wf = true →
    (State.storeBytes addr vs s).mem.wf = true
  | [], _, _, h => h
  | v :: vs, addr, _, h => State.storeBytes_wf vs (addr + 1) (State.memWrite_wf h addr v)

/-- `Load` keeps the canonical form. -/
theorem loadBytes_wf : ∀ (cells : List (Word × Byte)) {s : State}, s.mem.wf = true →
    (loadBytes cells s).mem.wf = true
  | [], _, h => h
  | (addr, v) :: rest, _, h => loadBytes_wf rest (State.memWrite_wf h addr v)

/-- Reset and `InitMemory` leave a canonical memory. -/
theorem initMemory_wf (s : State) : (initMemory s).mem.wf = true := rfl

theorem applyReset_wf (s : State) : (applyReset s).mem.wf = true := rfl

/-- Writing a register leaves the memory as it was. -/
theorem writeRegister_mem (w : RegisterWrite) (s : State) : (writeRegister w s).mem = s.mem := by
  cases w <;> rfl

end Sys2Proof.Machine
end

