-- ==== Sys2Proof/Laws/PerInstr.lean ====
section
/-! SUPPORT. Statements about every instruction as syntax, one lemma per constructor. -/

namespace Sys2Proof.Laws.EncodedLength

/-- The encoding is as long as the instruction, and never longer than the longest one (spec 30_encoding.md R60, R62). -/
def Statement (i : Instr) : Prop := (encode i).length = i.length ∧ i.length ≤ maxLength

theorem ldaImm (v : Byte) : Statement (.ldaImm v) := ⟨rfl, show 2 ≤ 3 by decide⟩
theorem ldaZp (z : Byte) : Statement (.ldaZp z) := ⟨rfl, show 2 ≤ 3 by decide⟩
theorem ldaZpX (z : Byte) : Statement (.ldaZpX z) := ⟨rfl, show 2 ≤ 3 by decide⟩
theorem ldaAbs (w : Word) : Statement (.ldaAbs w) := ⟨rfl, show 3 ≤ 3 by decide⟩
theorem jsrAbs (w : Word) : Statement (.jsrAbs w) := ⟨rfl, show 3 ≤ 3 by decide⟩
theorem unrecognized (op : Byte) : Statement (.unrecognized op) := ⟨rfl, show 1 ≤ 3 by decide⟩

end Sys2Proof.Laws.EncodedLength
end

