-- ==== Sys2Proof/Laws/Requests.lean ====
section
/-! SUPPORT. `Load` and `SetRegisters` as lists of single writes: a list in two parts is one part after the other. -/

namespace Sys2Proof.Machine

@[simp] theorem loadBytes_nil (s : State) : loadBytes [] s = s := rfl

theorem loadBytes_cons (addr : Word) (v : Byte) (rest : List (Word × Byte)) (s : State) :
    loadBytes ((addr, v) :: rest) s = loadBytes rest (s.memWrite addr v) := rfl

theorem loadBytes_append (post : List (Word × Byte)) : ∀ (pre : List (Word × Byte)) (s : State),
    loadBytes (pre ++ post) s = loadBytes post (loadBytes pre s)
  | [], _ => rfl
  | (addr, v) :: pre, s => loadBytes_append post pre (s.memWrite addr v)

@[simp] theorem setRegisters_nil (s : State) : setRegisters [] s = s := rfl

theorem setRegisters_cons (w : RegisterWrite) (rest : List RegisterWrite) (s : State) :
    setRegisters (w :: rest) s = setRegisters rest (writeRegister w s) := rfl

theorem setRegisters_append (post : List RegisterWrite) : ∀ (pre : List RegisterWrite) (s : State),
    setRegisters (pre ++ post) s = setRegisters post (setRegisters pre s)
  | [], _ => rfl
  | w :: pre, s => setRegisters_append post pre (writeRegister w s)

end Sys2Proof.Machine
end

