-- ==== Sys2Proof/Laws/Step.lean ====
section
/-! SUPPORT. What a fetch and a step can do, said once: later proofs cite `step_cases` and unfold nothing. -/

namespace Sys2Proof.Machine

theorem State.setPc_setPc (s : State) (u v : Word) : (s.setPc u).setPc v = s.setPc v := rfl

theorem State.fetchByte_eq (s : State) : s.fetchByte = (s.memRead s.pc, s.setPc (s.pc + 1)) := rfl

theorem State.fetchWord_eq (s : State) :
    s.fetchWord = (wordOf (s.memRead s.pc) (s.memRead (s.pc + 1)), s.setPc (s.pc + 1 + 1)) := rfl

/-- The instruction at `PC` and where `PC` is after it, by format. -/
theorem State.fetchInstr_eq (s : State) :
    s.fetchInstr =
      match opForm (s.memRead s.pc) with
      | .op1 i => (i, s.setPc (s.pc + 1))
      | .op2 build => (build (s.memRead (s.pc + 1)), s.setPc (s.pc + 2))
      | .op3 build => (build (wordOf (s.memRead (s.pc + 1)) (s.memRead (s.pc + 2))), s.setPc (s.pc + 3)) := by
  have h2 : s.pc + 1 + 1 = s.pc + 2 := by rw [BitVec.add_assoc]; rfl
  have h3 : s.pc + 1 + 1 + 1 = s.pc + 3 := by rw [BitVec.add_assoc, BitVec.add_assoc]; rfl
  rw [← h2, ← h3]
  unfold State.fetchInstr
  simp only [State.fetchByte_eq]
  cases opForm (s.memRead s.pc) <;> rfl

/-- A step is the meaning of the instruction fetched, at the state the fetch leaves. -/
theorem step_eq (s : State) : step s = exec s.fetchInstr.1 s.fetchInstr.2 := rfl

/-- A step, by the format of the opcode byte at `PC`. -/
theorem step_of_opcode {s : State} {op : Byte} (h : s.memRead s.pc = op) :
    step s =
      match opForm op with
      | .op1 i => exec i (s.setPc (s.pc + 1))
      | .op2 build => exec (build (s.memRead (s.pc + 1))) (s.setPc (s.pc + 2))
      | .op3 build => exec (build (wordOf (s.memRead (s.pc + 1)) (s.memRead (s.pc + 2)))) (s.setPc (s.pc + 3)) := by
  rw [step_eq, State.fetchInstr_eq, h]
  cases opForm op <;> rfl

/-- What the four loads share. -/
theorem loadA_eq (v : Byte) (cost : Nat) (s : State) :
    loadA v cost s = .next (((s.setA v).setZN v).charge cost) := rfl

/-- Everything a step can do, by the opcode byte at `PC`. -/
theorem step_cases (s : State) :
    (s.memRead s.pc = 0xA9 ∧ step s = loadA (s.memRead (s.pc + 1)) 2 (s.setPc (s.pc + 2))) ∨
    (s.memRead s.pc = 0xA5 ∧
      step s = loadA (s.memRead (eaZeroPage (s.memRead (s.pc + 1)))) 3 (s.setPc (s.pc + 2))) ∨
    (s.memRead s.pc = 0xB5 ∧
      step s = loadA (s.memRead (eaZeroPageX (s.memRead (s.pc + 1)) s)) 4 (s.setPc (s.pc + 2))) ∨
    (s.memRead s.pc = 0xAD ∧
      step s = loadA (s.memRead (eaAbsolute (wordOf (s.memRead (s.pc + 1)) (s.memRead (s.pc + 2))))) 4
        (s.setPc (s.pc + 3))) ∨
    (s.memRead s.pc = 0x20 ∧
      step s = .next ((((s.setPc (s.pc + 3)).push (s.pc + 3 - 1)).setPc
        (jumpTarget (wordOf (s.memRead (s.pc + 1)) (s.memRead (s.pc + 2))))).charge 6)) ∨
    ((s.memRead s.pc ≠ 0xA9 ∧ s.memRead s.pc ≠ 0xA5 ∧ s.memRead s.pc ≠ 0xB5 ∧ s.memRead s.pc ≠ 0xAD ∧
        s.memRead s.pc ≠ 0x20) ∧
      step s = .next (((s.setPc (s.pc + 1)).report (s.memRead s.pc)).charge 1)) := by
  rcases opcode_cases (s.memRead s.pc) with h | h | h | h | h | h
  · exact .inl ⟨h, step_of_opcode h⟩
  · exact .inr (.inl ⟨h, step_of_opcode h⟩)
  · exact .inr (.inr (.inl ⟨h, step_of_opcode h⟩))
  · exact .inr (.inr (.inr (.inl ⟨h, step_of_opcode h⟩)))
  · exact .inr (.inr (.inr (.inr (.inl ⟨h, step_of_opcode h⟩))))
  · refine .inr (.inr (.inr (.inr (.inr ⟨h, ?_⟩))))
    rw [step_of_opcode rfl, opForm_other h.1 h.2.1 h.2.2.1 h.2.2.2.1 h.2.2.2.2]
    rfl

end Sys2Proof.Machine
end

