-- ==== Sys2Proof/Tests/Slice0.lean ====
section
/-! SUPPORT. Small tests. Expected results are those of spec 95_test_vectors.md (vector ids in the comments) or worked
out by hand from the rule named. The theorems named witness_... show states and operands that meet the hypotheses of the
statements. -/

namespace Sys2Proof.Tests

open Sys2Proof.Machine Sys2Proof.Safety

/-- The state after Reset, with `PC` at `pc` and the bytes loaded. -/
def boot (pc : Word) (cells : List (Word × Byte)) : State := loadBytes cells (State.reset.setPc pc)

/-- The state after one Step. -/
def after (s : State) : State :=
  match step s with
  | .next t => t
  | .fault _ => s
  | .refused _ => s

/-- The state after `Execute(budget)`. -/
def afterRun (budget : Int) (s : State) : State :=
  match execute budget s with
  | .next t => t
  | .fault _ => s
  | .refused _ => s

/-! ## Well-formedness: each ill-formed term is refused -/

theorem test_illFormed_A9 : (Instr.unrecognized 0xA9).wf = false := by decide
theorem test_illFormed_A5 : (Instr.unrecognized 0xA5).wf = false := by decide
theorem test_illFormed_B5 : (Instr.unrecognized 0xB5).wf = false := by decide
theorem test_illFormed_AD : (Instr.unrecognized 0xAD).wf = false := by decide
theorem test_illFormed_20 : (Instr.unrecognized 0x20).wf = false := by decide

/-! ## Decoding: words written out from 30_encoding.md R60, R64, R65, R66 -/

/-- `1010 1001 iiiiiiii`. -/
theorem test_decode_ldaImm : decode [0b10101001, 0x24] = .ok (.ldaImm 0x24, []) := by decide
/-- `1010 0101 zzzzzzzz`. -/
theorem test_decode_ldaZp : decode [0b10100101, 0x10] = .ok (.ldaZp 0x10, []) := by decide
/-- `1011 0101 zzzzzzzz`. -/
theorem test_decode_ldaZpX : decode [0b10110101, 0xFF] = .ok (.ldaZpX 0xFF, []) := by decide
/-- `1010 1101 llllllll hhhhhhhh`. -/
theorem test_decode_ldaAbs : decode [0b10101101, 0x43, 0x42] = .ok (.ldaAbs 0x4243, []) := by decide
/-- `0010 0000 llllllll hhhhhhhh`. -/
theorem test_decode_jsrAbs : decode [0b00100000, 0xCD, 0xAB] = .ok (.jsrAbs 0xABCD, []) := by decide
/-- Any other byte, alone (R66: `0xFF`, the document's own example). -/
theorem test_decode_unrecognized : decode [0xFF, 0x24] = .ok (.unrecognized 0xFF, [0x24]) := by decide
/-- A sequence that ends before its operand is rejected by name. -/
theorem test_decode_missing : decode [0x20, 0x42] = .error (.missingOperand 0x20) := by decide
theorem test_decode_empty : decode [] = .error .noOpcode := by decide
/-- The table's numbering: byte 1 is bits 15..8, byte 2 bits 23..16; operand bytes the table gives no bits are zero. -/
theorem test_decodeTableWord : decodeTableWord 24 0x4243AD = some (.ldaAbs 0x4243) ∧
    decodeTableWord 8 0x20 = some (.jsrAbs 0x0000) ∧ decodeTableWord 8 0x00 = some (.unrecognized 0x00) := by decide
/-- The step after reset runs the word placed (R152: the first opcode is fetched at `0xFFFC`). -/
theorem test_withFetchWord : (after (State.reset.withFetchWord 16 0x80A9)).a = 0x80 ∧
    (after (State.reset.withFetchWord 8 0xB5)).cyc = State.reset.cyc - 4 := by decide

/-! ## Instructions: one Step each -/

/-- L7: the operand is fetched across the wrap. -/
theorem test_ldaImm_wrap : (after (boot 0xFFFF [(0xFFFF, 0xA9), (0x0000, 0x42)])).a = 0x42 ∧
    (after (boot 0xFFFF [(0xFFFF, 0xA9), (0x0000, 0x42)])).pc = 0x0001 := by decide
/-- L6: the six other flags are untouched. -/
theorem test_ldaImm_flags :
    (after (setRegisters [.flag .carry true, .flag .interruptDisable true, .flag .decimal true, .flag .break_ true,
      .flag .reserved true, .flag .overflow true] (boot 0x0200 [(0x0200, 0xA9)]))).f.toList =
    [true, true, true, true, true, true, true, false] := by decide
/-- L11: it reads its own opcode byte. -/
theorem test_ldaZp_self : (after (boot 0x0040 [(0x0040, 0xA5), (0x0041, 0x40)])).a = 0xA5 ∧
    (after (boot 0x0040 [(0x0040, 0xA5), (0x0041, 0x40)])).f.n = true := by decide
/-- L12. -/
theorem test_ldaZpX_plain :
    (after ((boot 0x0300 [(0x0300, 0xB5), (0x0301, 0x10), (0x0015, 0x7F)]).setX 0x05)).a = 0x7F := by decide
/-- L15 and L17: the address for both values of `ZPX_WRAP`. -/
theorem test_zpxEA : zpxEA false 0xFF 0xFF = 0x01FE ∧ zpxEA true 0xFF 0xFF = 0x00FE ∧
    zpxEA false 0x00 0xFF = 0x00FF ∧ zpxEA true 0x00 0xFF = 0x00FF ∧
    zpxEA false 0xFF 0x01 = 0x0100 ∧ zpxEA true 0xFF 0x01 = 0x0000 := by decide
/-- L23: byte order of the operand. -/
theorem test_ldaAbs_order :
    (after (boot 0x0300 [(0x0300, 0xAD), (0x0301, 0x34), (0x0302, 0x12), (0x1234, 0x56), (0x3412, 0x78)])).a =
    0x56 := by decide
/-- L20: both operand bytes are fetched after the wrap. -/
theorem test_ldaAbs_wrap : (after (boot 0xFFFF [(0xFFFF, 0xAD), (0x0001, 0x80)])).f.z = true ∧
    (after (boot 0xFFFF [(0xFFFF, 0xAD), (0x0001, 0x80)])).pc = 0x0002 := by decide
/-- J3: low byte of the return address at the lower address. -/
theorem test_jsr_push :
    (after ((boot 0x12FE [(0x12FE, 0x20), (0x12FF, 0xCD), (0x1300, 0xAB)]).setSp 0x0150)).memRead 0x0151 = 0x13 ∧
    (after ((boot 0x12FE [(0x12FE, 0x20), (0x12FF, 0xCD), (0x1300, 0xAB)]).setSp 0x0150)).memRead 0x0150 = 0x00 ∧
    (after ((boot 0x12FE [(0x12FE, 0x20), (0x12FF, 0xCD), (0x1300, 0xAB)]).setSp 0x0150)).pc = 0xABCD := by decide
/-- J10 and J7: the push overwrites the operand after it was fetched; `SP` wraps modulo 2^16. -/
theorem test_jsr_overlap :
    (after ((boot 0x0300 [(0x0300, 0x20), (0x0302, 0x10)]).setSp 0x0301)).pc = 0x1000 ∧
    (after ((boot 0x0300 [(0x0300, 0x20), (0x0302, 0x10)]).setSp 0x0301)).memRead 0x0302 = 0x03 ∧
    (after ((boot 0x0200 [(0x0200, 0x20), (0x0202, 0x10)]).setSp 0xFFFF)).sp = 0x0001 := by decide
/-- UN4: `0x60` is not a return; it is reported. -/
theorem test_unrecognized_60 : (after ((boot 0x0200 [(0x0200, 0x60)]).setSp 0x0102)).sp = 0x0102 ∧
    (after ((boot 0x0200 [(0x0200, 0x60)]).setSp 0x0102)).diag = [0x60] := by decide
/-- UN5: `PC` wraps. -/
theorem test_unrecognized_wrap : (after (boot 0xFFFF [(0xFFFF, 0x02)])).pc = 0x0000 := by decide

/-! ## Reset and runs -/

/-- Z1: from a state with every register set. -/
theorem test_reset_from_set :
    applyReset (State.mk 0x1234 0x0180 0xFF 0xFF 0xFF ⟨true, true, true, true, true, true, true, true⟩
      [(0, 0xFF), (0xFFFC, 0xFF)] (-5) [0xFF]) =
    { State.reset with cyc := -5, diag := [0xFF] } := by decide
/-- B3: one cycle is enough to run a whole `JSR`. -/
theorem test_execute_overdraw :
    (afterRun 1 (boot 0xFFFC [(0xFFFC, 0x20), (0xFFFD, 0x42), (0xFFFE, 0x42)])).cyc = -5 ∧
    (afterRun 1 (boot 0xFFFC [(0xFFFC, 0x20), (0xFFFD, 0x42), (0xFFFE, 0x42)])).pc = 0x4242 := by decide
/-- B2: a negative budget executes nothing. -/
theorem test_execute_negative :
    (afterRun (-3) (boot 0x0200 [(0x0200, 0xA9), (0x0201, 0x01)])).cyc = -3 ∧
    (afterRun (-3) (boot 0x0200 [(0x0200, 0xA9), (0x0201, 0x01)])).pc = 0x0200 := by decide

/-! ## Witnesses: the hypotheses of the statements can be met -/

/-- A state whose next instruction is `JSR $0100` onto its own push (program P3). -/
def jsrState : State := boot 0xFFFC [(0xFFFC, 0x20), (0xFFFE, 0x01)]

theorem witness_canonical : Canonical jsrState := by decide
theorem witness_reset_wf : State.reset.mem.wf = true := by decide
theorem witness_load : Canonical State.reset ∧
    ∀ c ∈ ([(0x0000, 0x11), (0xFFFF, 0x22)] : List (Word × Byte)), c.1 ≠ (0x0001 : Word) := by
  refine ⟨rfl, ?_⟩
  intro c hc
  rcases List.mem_cons.1 hc with rfl | hc
  · decide
  · cases List.mem_singleton.1 hc
    decide
/-- A pair before the last one, at an address loaded twice, and with another cell loaded after it. -/
theorem witness_load_middle : Canonical State.reset ∧
    ([(0xFFFF, 0x11), (0xFFFF, 0x22), (0x0000, 0x33)] : List (Word × Byte)) =
      [(0xFFFF, 0x11)] ++ (0xFFFF, 0x22) :: [(0x0000, 0x33)] ∧
    ∀ c ∈ ([(0x0000, 0x33)] : List (Word × Byte)), c.1 ≠ (0xFFFF : Word) := by
  refine ⟨rfl, rfl, ?_⟩
  intro c hc
  cases List.mem_singleton.1 hc
  decide
theorem witness_setRegisters : setRegisters [.x 0x05, .flag .negative true] State.reset =
    { State.reset with x := 0x05, f := { Flags.clear with n := true } } := by decide
theorem witness_step_not_jsr : State.reset.memRead State.reset.pc ≠ 0x20 ∧ ∃ t, step State.reset = .next t :=
  ⟨by decide, _, rfl⟩
theorem witness_length_enough : lengthOf 0x20 ≤ [(0x42 : Byte), 0x42].length + 1 ∧
    lengthOf 0xB5 ≤ [(0xFF : Byte)].length + 1 ∧ lengthOf 0x00 ≤ ([] : List Byte).length + 1 := by decide
theorem witness_length_short : [(0x42 : Byte)].length + 1 < lengthOf 0x20 ∧
    ([] : List Byte).length + 1 < lengthOf 0xA9 := by decide
theorem witness_wellFormed : (Instr.unrecognized 0x00).WellFormed ∧ (Instr.unrecognized 0xFF).WellFormed ∧
    (Instr.ldaImm 0xFF).WellFormed ∧ (Instr.ldaZp 0xFF).WellFormed ∧ (Instr.ldaZpX 0xFF).WellFormed ∧
    (Instr.ldaAbs 0xFFFF).WellFormed ∧ (Instr.jsrAbs 0xFFFF).WellFormed := by decide
theorem witness_decode : ∃ i rest, decode [jsrState.memRead jsrState.pc, jsrState.memRead (jsrState.pc + 1),
    jsrState.memRead (jsrState.pc + 2)] = .ok (i, rest) := ⟨.jsrAbs 0x0100, [], by decide⟩
theorem witness_zpxWrap : Config.zpxWrap = false ∨ Config.zpxWrap = true := by
  cases Config.zpxWrap
  · exact .inl rfl
  · exact .inr rfl
theorem witness_at_A9 : (boot 0x0200 [(0x0200, 0xA9)]).memRead (boot 0x0200 [(0x0200, 0xA9)]).pc = 0xA9 := by decide
theorem witness_at_A5 : (boot 0x0200 [(0x0200, 0xA5)]).memRead (boot 0x0200 [(0x0200, 0xA5)]).pc = 0xA5 := by decide
theorem witness_at_B5 : (boot 0x0200 [(0x0200, 0xB5)]).memRead (boot 0x0200 [(0x0200, 0xB5)]).pc = 0xB5 := by decide
theorem witness_at_AD : (boot 0x0200 [(0x0200, 0xAD)]).memRead (boot 0x0200 [(0x0200, 0xAD)]).pc = 0xAD := by decide
theorem witness_at_20 : Canonical jsrState ∧ jsrState.memRead jsrState.pc = 0x20 := by decide
theorem witness_at_other :
    State.reset.memRead State.reset.pc ∉ ([0xA9, 0xA5, 0xB5, 0xAD, 0x20] : List Byte) := by decide
/-- Each clause of the table of `SetZN`, at the ends of its range. -/
theorem witness_setZN_ranges : (0x00 : Byte).toNat = 0 ∧
    (0x01 ≤ (0x01 : Byte).toNat ∧ (0x01 : Byte).toNat ≤ 0x7F) ∧
    (0x01 ≤ (0x7F : Byte).toNat ∧ (0x7F : Byte).toNat ≤ 0x7F) ∧
    0x80 ≤ (0x80 : Byte).toNat ∧ 0x80 ≤ (0xFF : Byte).toNat := by decide
theorem witness_exec_loads (s : State) : (∃ t, exec (.ldaImm 0x00) s = .next t) ∧ (∃ t, exec (.ldaZp 0xFF) s = .next t) ∧
    (∃ t, exec (.ldaZpX 0xFF) s = .next t) ∧ ∃ t, exec (.ldaAbs 0xFFFF) s = .next t :=
  ⟨⟨_, rfl⟩, ⟨_, rfl⟩, ⟨_, rfl⟩, _, rfl⟩
theorem witness_exec_jsr : Canonical jsrState ∧ ∃ t, exec (.jsrAbs 0xFFFF) jsrState = .next t := ⟨by decide, _, rfl⟩
theorem witness_exec_unrecognized : ∃ t, exec (.unrecognized 0xFF) State.reset = .next t := ⟨_, rfl⟩
theorem witness_step_jsr : Canonical jsrState ∧ jsrState.memRead jsrState.pc = 0x20 ∧ operand16At jsrState = jsrState.sp ∧
    ∃ t, step jsrState = .next t := ⟨by decide, by decide, by decide, _, rfl⟩
theorem witness_fits : FlagsFitAccumulator State.reset ∧ ∃ t, step State.reset = .next t :=
  ⟨⟨by decide, fun _ => rfl⟩, _, rfl⟩
/-- A state that no instruction reached, where the flags fit: `A` negative. -/
theorem witness_fits_negative : FlagsFitAccumulator (State.reset.setA 0x80 |>.setZN 0x80) :=
  ⟨by decide, by decide⟩
/-- Two states that differ in `A`, `Y`, the flags, `CYC` and the stream, about to load `A`. -/
theorem witness_ignores : (∃ t, step (boot 0x0200 [(0x0200, 0xA9)]) = .next t) ∧
    (∃ u, step { boot 0x0200 [(0x0200, 0xA9)] with
      a := 0x01, y := 0x02, f := ⟨true, true, true, true, true, true, true, true⟩, cyc := 7, diag := [0x03] } = .next u) ∧
    (boot 0x0200 [(0x0200, 0xA9)]).memRead (boot 0x0200 [(0x0200, 0xA9)]).pc ∈
      ([0xA9, 0xA5, 0xB5, 0xAD] : List Byte) := ⟨⟨_, rfl⟩, ⟨_, rfl⟩, by decide⟩
theorem witness_writeReach : Canonical jsrState ∧ (∃ t, step jsrState = .next t) ∧
    (0x0102 : Word) ∉ writeReach jsrState ∧ (0x0100 : Word) ∈ writeReach jsrState :=
  ⟨by decide, ⟨_, rfl⟩, by decide, by decide⟩
/-- A cell outside the read reach, outside the write reach and inside it. -/
theorem witness_readReach : Canonical jsrState ∧ (0x0102 : Word) ∉ readReach jsrState ∧ (0x0101 : Word) ∉ readReach jsrState ∧
    (0x0101 : Word) ∈ writeReach jsrState ∧ (∃ t, step jsrState = .next t) ∧
    (∃ u, step (jsrState.memWrite 0x0102 0x55) = .next u) ∧ ∃ u, step (jsrState.memWrite 0x0101 0x55) = .next u :=
  ⟨by decide, by decide, by decide, by decide, ⟨_, rfl⟩, ⟨_, rfl⟩, _, rfl⟩
theorem witness_steps : ∃ t, steps 2 jsrState = .next t := ⟨_, rfl⟩
theorem witness_budgets : (0 : Int) ≤ 0 ∧ (0 : Int) < 1 ∧ 0 < (1 : Nat) := by decide
theorem witness_session : ∀ q ∈ ([.load [(0xFFFC, 0xA9)], .execute 2] : List Request), isLoadOrExecute q = true := by
  decide

end Sys2Proof.Tests
end

section
/-! SUPPORT. What Reset leaves: an empty memory, the same state when done again, and the invariants of Safety.lean. -/

namespace Sys2Proof.Machine

/-- A memory that lists no cell reads as `0x00` everywhere (assumption log 6). -/
theorem State.memRead_of_mem_nil {s : State} (h : s.mem = []) (addr : Word) : s.memRead addr = 0 := by
  rw [State.memRead, h, Memory.read]

@[simp] theorem applyReset_memRead (s : State) (addr : Word) : (applyReset s).memRead addr = 0 :=
  State.memRead_of_mem_nil (applyReset_mem s) addr

/-- Reset reads only `CYC` and the diagnostic stream, and keeps both. -/
@[simp] theorem applyReset_applyReset (s : State) : applyReset (applyReset s) = applyReset s := rfl

/-- `State.reset` is what Reset makes of itself, so a fact about every Reset holds of it. -/
@[simp] theorem applyReset_reset : applyReset State.reset = State.reset := rfl

end Sys2Proof.Machine

namespace Sys2Proof.Safety

open Sys2Proof.Machine

/-- `A` is zero after Reset, so Negative has to be clear; Zero is clear, so it asks nothing of `A`. -/
theorem flagsFitAccumulator_applyReset (s : State) : FlagsFitAccumulator (applyReset s) := by
  have hnegative : (applyReset s).f.n = decide (0x80 ≤ (applyReset s).a.toNat) := by
    simp [Flags.clear]
  have hzero : (applyReset s).f.z = true → (applyReset s).a = 0 := fun _ => applyReset_a s
  exact ⟨hnegative, hzero⟩

theorem unwrittenStateIsClear_applyReset (s : State) : UnwrittenStateIsClear (applyReset s) := by
  simp [UnwrittenStateIsClear, Flags.clear]

end Sys2Proof.Safety

namespace Sys2Proof.Proofs

open Sys2Proof.Machine Sys2Proof.Safety

/-- Settles O1: each register, flag and kept field by its law of Reset, the cells because the memory lists none. -/
theorem resetLeavesPowerUpState : Obligations.ResetLeavesPowerUpState := fun s =>
  ⟨applyReset_pc s, applyReset_sp s, applyReset_a s, applyReset_x s, applyReset_y s, applyReset_f s,
    applyReset_memRead s, applyReset_cyc s, applyReset_diag s, applyReset_applyReset s⟩

/-- Settles O2: every Reset leaves the three invariants, and `State.reset` is the Reset of itself. -/
theorem resetStateMeetsInvariants : Obligations.ResetStateMeetsInvariants := by
  unfold Obligations.ResetStateMeetsInvariants
  rw [← applyReset_reset]
  exact ⟨applyReset_wf _, flagsFitAccumulator_applyReset _, unwrittenStateIsClear_applyReset _⟩

end Sys2Proof.Proofs
end

section
/-! SUPPORT. Which steps leave the memory alone: every one but `JSR` (20_memory.md R42). -/

namespace Sys2Proof.Machine

/-- A load of `A` writes no memory, whatever its addressing mode. -/
theorem loadA_mem {v : Byte} {cost : Nat} {s t : State} (h : loadA v cost s = .next t) : t.mem = s.mem := by
  rw [loadA_eq] at h
  cases h
  simp

/-- `JSR` is the only instruction whose step writes memory. -/
theorem step_mem_of_ne_jsr {s t : State} (hop : s.memRead s.pc ≠ 0x20) (h : step s = .next t) : t.mem = s.mem := by
  rcases step_cases s with ⟨_, hs⟩ | ⟨_, hs⟩ | ⟨_, hs⟩ | ⟨_, hs⟩ | ⟨hjsr, _⟩ | ⟨_, hs⟩
  · exact (loadA_mem (hs.symm.trans h)).trans (State.setPc_mem s _)
  · exact (loadA_mem (hs.symm.trans h)).trans (State.setPc_mem s _)
  · exact (loadA_mem (hs.symm.trans h)).trans (State.setPc_mem s _)
  · exact (loadA_mem (hs.symm.trans h)).trans (State.setPc_mem s _)
  · exact absurd hjsr hop
  · cases hs.symm.trans h
    simp

end Sys2Proof.Machine

namespace Sys2Proof.Proofs

open Sys2Proof.Machine

/-- Settles O6: reading after a write is the law of `MemWrite` on a canonical memory, and only `JSR` writes memory. -/
theorem memWriteSetsOneCell : Obligations.MemWriteSetsOneCell :=
  ⟨fun _ addr v hcanonical a => State.memRead_memWrite hcanonical addr v a,
    fun _ _ hop hstep => step_mem_of_ne_jsr hop hstep⟩

end Sys2Proof.Proofs
end

section
/-! SUPPORT. What `decode` answers for each format of 30_encoding.md R60, and what the opcode map promises for each. -/

namespace Sys2Proof

open Sys2Proof.Safety

section decode_formats
variable {op : Byte}

theorem decode_op1 {i : Instr} (h : opForm op = .op1 i) (rest : List Byte) :
    decode (op :: rest) = .ok (i, rest) := by
  simp [decode, h]

theorem decode_op2 {build : Byte → Instr} (h : opForm op = .op2 build) (v : Byte) (rest : List Byte) :
    decode (op :: v :: rest) = .ok (build v, rest) := by
  simp [decode, h]

theorem decode_op3 {build : Word → Instr} (h : opForm op = .op3 build) (lo hi : Byte) (rest : List Byte) :
    decode (op :: lo :: hi :: rest) = .ok (build (wordOf lo hi), rest) := by
  simp [decode, h]

theorem decode_op2_nil {build : Byte → Instr} (h : opForm op = .op2 build) :
    decode [op] = .error (.missingOperand op) := by
  simp [decode, h]

theorem decode_op3_nil {build : Word → Instr} (h : opForm op = .op3 build) :
    decode [op] = .error (.missingOperand op) := by
  simp [decode, h]

theorem decode_op3_singleton {build : Word → Instr} (h : opForm op = .op3 build) (lo : Byte) :
    decode [op, lo] = .error (.missingOperand op) := by
  simp [decode, h]

end decode_formats

/-- A sequence that decodes holds an opcode byte, the operand bytes its format asks for, and the rest. -/
theorem decode_eq_ok_cases {bytes rest : List Byte} {i : Instr} (h : decode bytes = .ok (i, rest)) :
    ∃ op, (opForm op = .op1 i ∧ bytes = op :: rest) ∨
      (∃ build v, opForm op = .op2 build ∧ i = build v ∧ bytes = op :: v :: rest) ∨
      ∃ build lo hi, opForm op = .op3 build ∧ i = build (wordOf lo hi) ∧ bytes = op :: lo :: hi :: rest := by
  cases bytes with
  | nil => cases h
  | cons op tail =>
    refine ⟨op, ?_⟩
    cases hform : opForm op with
    | op1 j =>
      cases (decode_op1 hform tail).symm.trans h
      exact .inl ⟨rfl, rfl⟩
    | op2 build =>
      rcases tail with _ | ⟨v, tail⟩
      · cases (decode_op2_nil hform).symm.trans h
      · cases (decode_op2 hform v tail).symm.trans h
        exact .inr (.inl ⟨build, v, rfl, rfl, rfl⟩)
    | op3 build =>
      rcases tail with _ | ⟨lo, _ | ⟨hi, tail⟩⟩
      · cases (decode_op3_nil hform).symm.trans h
      · cases (decode_op3_singleton hform lo).symm.trans h
      · cases (decode_op3 hform lo hi tail).symm.trans h
        exact .inr (.inr ⟨build, lo, hi, rfl, rfl, rfl⟩)

/-- The format suits the opcode byte: it takes the operand bytes that R62 counts, and every instruction it completes is
well formed and encoded as that byte and its operand. -/
def OpForm.Suits (op : Byte) : OpForm → Prop
  | .op1 i => lengthOf op = 1 ∧ i.WellFormed ∧ encode i = [op]
  | .op2 build => lengthOf op = 2 ∧ ∀ v, (build v).WellFormed ∧ encode (build v) = [op, v]
  | .op3 build => lengthOf op = 3 ∧ ∀ w, (build w).WellFormed ∧ encode (build w) = [op, loByte w, hiByte w]

/-- The length of R62 for the 251 opcode bytes of R66. -/
theorem lengthOf_other {op : Byte} (h1 : op ≠ 0xA9) (h2 : op ≠ 0xA5) (h3 : op ≠ 0xB5) (h4 : op ≠ 0xAD)
    (h5 : op ≠ 0x20) : lengthOf op = 1 := by
  rw [lengthOf, if_neg (by tauto), if_neg (by tauto)]

theorem opForm_suits (op : Byte) : (opForm op).Suits op := by
  rcases opcode_cases op with rfl | rfl | rfl | rfl | rfl | hother
  · exact ⟨rfl, fun _ => ⟨rfl, rfl⟩⟩
  · exact ⟨rfl, fun _ => ⟨rfl, rfl⟩⟩
  · exact ⟨rfl, fun _ => ⟨rfl, rfl⟩⟩
  · exact ⟨rfl, fun _ => ⟨rfl, rfl⟩⟩
  · exact ⟨rfl, fun _ => ⟨rfl, rfl⟩⟩
  · have hwf := wf_unrecognized.2 hother
    obtain ⟨h1, h2, h3, h4, h5⟩ := hother
    rw [opForm_other h1 h2 h3 h4 h5]
    exact ⟨lengthOf_other h1 h2 h3 h4 h5, hwf, rfl⟩

section suits_formats
variable {op : Byte}

theorem suits_of_op1 {i : Instr} (h : opForm op = .op1 i) :
    lengthOf op = 1 ∧ i.WellFormed ∧ encode i = [op] :=
  (h ▸ opForm_suits op : (OpForm.op1 i).Suits op)

theorem suits_of_op2 {build : Byte → Instr} (h : opForm op = .op2 build) :
    lengthOf op = 2 ∧ ∀ v, (build v).WellFormed ∧ encode (build v) = [op, v] :=
  (h ▸ opForm_suits op : (OpForm.op2 build).Suits op)

theorem suits_of_op3 {build : Word → Instr} (h : opForm op = .op3 build) :
    lengthOf op = 3 ∧ ∀ w, (build w).WellFormed ∧ encode (build w) = [op, loByte w, hiByte w] :=
  (h ▸ opForm_suits op : (OpForm.op3 build).Suits op)

end suits_formats

theorem length_encode (i : Instr) : (encode i).length = i.length := by
  cases i <;> rfl

/-- The length of an instruction whose encoding is known. -/
theorem Instr.length_of_encode {i : Instr} {bytes : List Byte} (h : encode i = bytes) : i.length = bytes.length := by
  rw [← length_encode, h]

end Sys2Proof

namespace Sys2Proof.Proofs

/-- Settles O11: one format per constructor; the halves of a 16-bit operand are put together again. -/
theorem decodeOfEncode : Obligations.DecodeOfEncode := by
  intro i hwf rest
  cases i with
  | ldaImm v => exact decode_op2 opForm_A9 v rest
  | ldaZp z => exact decode_op2 opForm_A5 z rest
  | ldaZpX z => exact decode_op2 opForm_B5 z rest
  | ldaAbs w => exact (decode_op3 opForm_AD (loByte w) (hiByte w) rest).trans (by rw [wordOf_lo_hi])
  | jsrAbs w => exact (decode_op3 opForm_20 (loByte w) (hiByte w) rest).trans (by rw [wordOf_lo_hi])
  | unrecognized op =>
    obtain ⟨h1, h2, h3, h4, h5⟩ := wf_unrecognized.1 hwf
    exact decode_other h1 h2 h3 h4 h5 rest

/-- Settles O12: what decodes has the bytes of its format, and the opcode map builds from them the instruction that
these bytes encode. -/
theorem encodeOfDecode : Obligations.EncodeOfDecode := by
  intro bytes rest i h
  obtain ⟨op, ⟨hform, rfl⟩ | ⟨build, v, hform, rfl, rfl⟩ | ⟨build, lo, hi, hform, rfl, rfl⟩⟩ :=
    decode_eq_ok_cases h
  · obtain ⟨-, hwf, henc⟩ := suits_of_op1 hform
    exact ⟨hwf, by simp [henc]⟩
  · obtain ⟨hwf, henc⟩ := (suits_of_op2 hform).2 v
    exact ⟨hwf, by simp [henc]⟩
  · obtain ⟨hwf, henc⟩ := (suits_of_op3 hform).2 (wordOf lo hi)
    exact ⟨hwf, by simp [henc]⟩

/-- Settles O10: the format of the opcode byte takes the bytes R62 counts; the sequence either holds them or ends
inside the operand. -/
theorem lengthFromOpcodeAlone : Obligations.LengthFromOpcodeAlone := by
  intro op rest
  cases hform : opForm op with
  | op1 i =>
    obtain ⟨hlen, -, henc⟩ := suits_of_op1 hform
    rw [hlen]
    exact ⟨fun _ => ⟨i, decode_op1 hform rest, Instr.length_of_encode henc⟩, fun hshort => by omega⟩
  | op2 build =>
    obtain ⟨hlen, henc⟩ := suits_of_op2 hform
    rw [hlen]
    rcases rest with _ | ⟨v, rest⟩
    · exact ⟨fun henough => absurd henough (by simp), fun _ => decode_op2_nil hform⟩
    · exact ⟨fun _ => ⟨build v, decode_op2 hform v rest, Instr.length_of_encode (henc v).2⟩,
        fun hshort => absurd hshort (by simp)⟩
  | op3 build =>
    obtain ⟨hlen, henc⟩ := suits_of_op3 hform
    rw [hlen]
    rcases rest with _ | ⟨lo, _ | ⟨hi, rest⟩⟩
    · exact ⟨fun henough => absurd henough (by simp), fun _ => decode_op3_nil hform⟩
    · exact ⟨fun henough => absurd henough (by simp), fun _ => decode_op3_singleton hform lo⟩
    · exact ⟨fun _ => ⟨build (wordOf lo hi), decode_op3 hform lo hi rest, Instr.length_of_encode (henc _).2⟩,
        fun hshort => by simp only [List.length_cons] at hshort; omega⟩

/-- Settles O13: each word is the encoding of its instruction, then the bytes left over. -/
theorem specWordsDecode : Obligations.SpecWordsDecode :=
  ⟨decodeOfEncode (.ldaImm 0x24) rfl [], decodeOfEncode (.ldaZp 0x10) rfl [], decodeOfEncode (.ldaZpX 0x10) rfl [],
    decodeOfEncode (.ldaAbs 0x4243) rfl [], decodeOfEncode (.jsrAbs 0xABCD) rfl [],
    decodeOfEncode (.unrecognized 0xEA) rfl [0x60]⟩

end Sys2Proof.Proofs
end

section
/-! SUPPORT. Fetching as numbers: addresses modulo 2^16, and a 16-bit operand as `hi * 256 + lo` (40_execute_loop.md R84,
R85). -/

namespace Sys2Proof

/-- Address arithmetic is modulo 2^16 (10_state.md R15). -/
theorem word_add_ofNat (addr : Word) (k : Nat) :
    addr + BitVec.ofNat 16 k = BitVec.ofNat 16 ((addr.toNat + k) % 2 ^ 16) := by
  apply BitVec.eq_of_toNat_eq
  simp

theorem wordOf_eq_ofNat (lo hi : Byte) : wordOf lo hi = BitVec.ofNat 16 (hi.toNat * 256 + lo.toNat) := by
  rw [← toNat_wordOf, BitVec.ofNat_toNat, BitVec.setWidth_eq]

end Sys2Proof

namespace Sys2Proof.Machine

theorem State.setPc_eq (s : State) (u : Word) : s.setPc u = { s with pc := u } := rfl

end Sys2Proof.Machine

namespace Sys2Proof.Proofs

open Sys2Proof.Machine

/-- Settles O7: the byte read is the one at `PC`, and the one field written is `PC`. -/
theorem fetchByteAdvancesPc : Obligations.FetchByteAdvancesPc := by
  intro s
  rw [State.fetchByte_eq, State.setPc_eq]
  exact congrArg (fun pc => (s.memRead s.pc, { s with pc := pc })) (word_add_ofNat s.pc 1)

/-- Settles O8: the two bytes are put together low byte first, and `PC` moves by one twice. -/
theorem fetchWordIsLittleEndian : Obligations.FetchWordIsLittleEndian := by
  intro s
  rw [State.fetchWord_eq]
  have hpc : s.pc + 1 + 1 = BitVec.ofNat 16 ((s.pc.toNat + 2) % 2 ^ 16) :=
    (BitVec.add_assoc s.pc 1 1).trans (word_add_ofNat s.pc 2)
  exact ⟨toNat_wordOf _ _, by rw [hpc, State.setPc_eq]⟩

/-- Settles O9: the format of each of the six arms, with the operand its format fetches. -/
theorem dispatchByWholeOpcodeByte : Obligations.DispatchByWholeOpcodeByte := by
  intro s
  rw [State.fetchInstr_eq, ← wordOf_eq_ofNat]
  rcases opcode_cases (s.memRead s.pc) with h | h | h | h | h | ⟨h1, h2, h3, h4, h5⟩
  · rw [h]; rfl
  · rw [h]; rfl
  · rw [h]; rfl
  · rw [h]; rfl
  · rw [h]; rfl
  · rw [opForm_other h1 h2 h3 h4 h5, if_neg h1, if_neg h2, if_neg h3, if_neg h4, if_neg h5]

/-- Settles O14: the bytes decode by the format of the opcode byte, which is also the format the step fetches by. -/
theorem stepRunsDecodedInstruction : Obligations.StepRunsDecodedInstruction := by
  intro s i rest h
  obtain ⟨op, ⟨hform, hbytes⟩ | ⟨build, v, hform, rfl, hbytes⟩ | ⟨build, lo, hi, hform, rfl, hbytes⟩⟩ :=
    decode_eq_ok_cases h
  · cases hbytes
    obtain ⟨-, hwf, henc⟩ := suits_of_op1 hform
    rw [step_of_opcode rfl, hform, Instr.length_of_encode henc]
    exact ⟨hwf, rfl⟩
  · cases hbytes
    obtain ⟨hwf, henc⟩ := (suits_of_op2 hform).2 (s.memRead (s.pc + 1))
    rw [step_of_opcode rfl, hform, Instr.length_of_encode henc]
    exact ⟨hwf, rfl⟩
  · cases hbytes
    obtain ⟨hwf, henc⟩ := (suits_of_op3 hform).2 (wordOf (s.memRead (s.pc + 1)) (s.memRead (s.pc + 2)))
    rw [step_of_opcode rfl, hform, Instr.length_of_encode henc]
    exact ⟨hwf, rfl⟩

end Sys2Proof.Proofs
end

section
/-! SUPPORT. What a Step is charged (40_execute_loop.md R87), `n` Steps one at a time, and the loop of R82: when it stops,
when it goes on, and that fuel for the budget is enough. -/

namespace Sys2Proof.Machine

open Sys2Proof.Safety

/-- The last row of R87's table (D5). -/
theorem cycleCost_other {op : Byte} (h1 : op ≠ 0xA9) (h2 : op ≠ 0xA5) (h3 : op ≠ 0xB5) (h4 : op ≠ 0xAD)
    (h5 : op ≠ 0x20) : cycleCost op = 1 := by
  rw [cycleCost, if_neg h1, if_neg h2, if_neg h3, if_neg h4, if_neg h5]

theorem cycleCost_bounds (op : Byte) : 1 ≤ cycleCost op ∧ cycleCost op ≤ 6 := by
  unfold cycleCost
  split_ifs <;> decide

/-- Every state has a next state, charged R87's total for the opcode byte at `PC`. -/
theorem step_completes (s : State) :
    ∃ t, step s = .next t ∧ t.cyc = s.cyc - (cycleCost (opcodeAt s) : Int) := by
  rw [opcodeAt]
  rcases step_cases s with ⟨h, hs⟩ | ⟨h, hs⟩ | ⟨h, hs⟩ | ⟨h, hs⟩ | ⟨h, hs⟩ | ⟨⟨h1, h2, h3, h4, h5⟩, hs⟩
  · exact ⟨_, hs, by rw [h]; rfl⟩
  · exact ⟨_, hs, by rw [h]; rfl⟩
  · exact ⟨_, hs, by rw [h]; rfl⟩
  · exact ⟨_, hs, by rw [h]; rfl⟩
  · exact ⟨_, hs, by rw [h]; rfl⟩
  · exact ⟨_, hs, by rw [cycleCost_other h1 h2 h3 h4 h5]; rfl⟩

section one_more_step
variable {s u : State} (h : step s = .next u)
include h

theorem step_cyc : u.cyc = s.cyc - (cycleCost (opcodeAt s) : Int) := by
  obtain ⟨t, hstep, hcyc⟩ := step_completes s
  cases h.symm.trans hstep
  exact hcyc

theorem step_cyc_bounds : s.cyc - 6 ≤ u.cyc ∧ u.cyc ≤ s.cyc - 1 := by
  have hcyc := step_cyc h
  have hcost := cycleCost_bounds (opcodeAt s)
  omega

theorem steps_succ (n : Nat) : steps (n + 1) s = steps n u := by
  simp only [steps, h]

theorem chargedOver_succ (n : Nat) : chargedOver (n + 1) s = cycleCost (opcodeAt s) + chargedOver n u := by
  simp only [chargedOver, h]

theorem runLoop_succ (hpos : 0 < s.cyc) (fuel : Nat) : runLoop (fuel + 1) s = runLoop fuel u := by
  simp only [runLoop, if_pos hpos, h]

end one_more_step

/-- `n` Steps bring `CYC` down by the sum of their charges. -/
theorem steps_cyc : ∀ (n : Nat) {s t : State}, steps n s = .next t → t.cyc = s.cyc - (chargedOver n s : Int)
  | 0, s, t, h => by
    cases h
    simp [chargedOver]
  | n + 1, s, t, h => by
    obtain ⟨u, hstep, hcyc⟩ := step_completes s
    have ih := steps_cyc n ((steps_succ hstep n).symm.trans h)
    rw [chargedOver_succ hstep]
    omega

/-- A spent budget stops the loop before any Step (R82: the condition is strict). -/
theorem runLoop_of_spent {s : State} (h : s.cyc ≤ 0) (fuel : Nat) : runLoop fuel s = .next s := by
  cases fuel with
  | zero => rfl
  | succ fuel => rw [runLoop, if_neg (by omega)]

/-- Any two amounts of fuel that cover the budget give the same run, since each Step charges at least 1. -/
theorem runLoop_fuel_irrelevant : ∀ (fuel fuel' : Nat) {s : State}, s.cyc ≤ fuel → s.cyc ≤ fuel' →
    runLoop fuel s = runLoop fuel' s
  | 0, fuel', s, h, _ => (runLoop_of_spent h 0).trans (runLoop_of_spent h fuel').symm
  | fuel, 0, s, _, h => (runLoop_of_spent h fuel).trans (runLoop_of_spent h 0).symm
  | fuel + 1, fuel' + 1, s, h, h' => by
    by_cases hpos : 0 < s.cyc
    · obtain ⟨u, hstep, -⟩ := step_completes s
      have hcyc := (step_cyc_bounds hstep).2
      rw [runLoop_succ hstep hpos, runLoop_succ hstep hpos]
      exact runLoop_fuel_irrelevant fuel fuel' (by omega) (by omega)
    · have hspent : s.cyc ≤ 0 := by omega
      rw [runLoop_of_spent hspent, runLoop_of_spent hspent]

/-- Fuel that covers the budget gives the run of `Execute` with what `CYC` holds. -/
theorem runLoop_eq_execute {s : State} {fuel : Nat} (h : s.cyc ≤ fuel) : runLoop fuel s = execute s.cyc s :=
  runLoop_fuel_irrelevant fuel s.cyc.toNat h (Int.self_le_toNat s.cyc)

/-- A run from `s` ends at `t` after `n` Steps: `n` is the least number that spends `CYC`, and the last Step overdraws it
by 5 at most (R88). -/
structure RunEnds (s : State) (n : Nat) (t : State) : Prop where
  reached : steps n s = .next t
  spent : t.cyc ≤ 0
  least : ∀ m < n, 0 < s.cyc - (chargedOver m s : Int)
  overdraft : min s.cyc (-5) ≤ t.cyc

theorem RunEnds.of_spent {s : State} (h : s.cyc ≤ 0) : RunEnds s 0 s where
  reached := rfl
  spent := h
  least := fun m hm => absurd hm (Nat.not_lt_zero m)
  overdraft := min_le_left _ _

theorem RunEnds.of_step {s u t : State} {n : Nat} (hpos : 0 < s.cyc) (hstep : step s = .next u)
    (h : RunEnds u n t) : RunEnds s (n + 1) t where
  reached := (steps_succ hstep n).trans h.reached
  spent := h.spent
  least
    | 0, _ => by simpa [chargedOver] using hpos
    | m + 1, hm => by
      have hcyc := step_cyc hstep
      have hleast := h.least m (Nat.lt_of_succ_lt_succ hm)
      rw [chargedOver_succ hstep]
      omega
  overdraft := by
    have hcyc := (step_cyc_bounds hstep).1
    have hover := h.overdraft
    omega

/-- With fuel for the budget the loop stops because the budget is spent, not because the fuel is. -/
theorem runLoop_ends : ∀ (fuel : Nat) {s : State}, s.cyc ≤ fuel →
    ∃ n t, runLoop fuel s = .next t ∧ RunEnds s n t
  | 0, s, h => ⟨0, s, rfl, .of_spent h⟩
  | fuel + 1, s, h => by
    by_cases hpos : 0 < s.cyc
    · obtain ⟨u, hstep, -⟩ := step_completes s
      have hcyc := (step_cyc_bounds hstep).2
      obtain ⟨n, t, hrun, hends⟩ := runLoop_ends fuel (s := u) (by omega)
      exact ⟨n + 1, t, (runLoop_succ hstep hpos fuel).trans hrun, .of_step hpos hstep hends⟩
    · have hspent : s.cyc ≤ 0 := by omega
      exact ⟨0, s, runLoop_of_spent hspent _, .of_spent hspent⟩

/-- Every `Execute` ends, as R88 says. -/
theorem execute_ends (budget : Int) (s : State) :
    ∃ n t, execute budget s = .next t ∧ RunEnds (s.setCyc budget) n t :=
  runLoop_ends budget.toNat (Int.self_le_toNat budget)

end Sys2Proof.Machine

namespace Sys2Proof.Proofs

open Sys2Proof.Machine Sys2Proof.Safety

/-- Settles O43: a spent budget stops the loop at once; otherwise it takes one Step, and the fuel left still covers what
`CYC` then holds. -/
theorem executeIsTheLoop : Obligations.ExecuteIsTheLoop := by
  intro budget s
  refine ⟨fun hspent => runLoop_of_spent (s := s.setCyc budget) hspent _, fun hpos => ?_⟩
  obtain ⟨t, hstep, -⟩ := step_completes (s.setCyc budget)
  have hcyc : t.cyc ≤ budget - 1 := (step_cyc_bounds hstep).2
  obtain ⟨fuel, hfuel⟩ : ∃ fuel, budget.toNat = fuel + 1 := Nat.exists_eq_add_one.2 (by omega)
  refine ⟨t, hstep, ?_⟩
  calc execute budget s = runLoop (fuel + 1) (s.setCyc budget) := by rw [execute, hfuel]
    _ = runLoop fuel t := runLoop_succ hstep hpos fuel
    _ = execute t.cyc t := runLoop_eq_execute (by omega)

/-- Settles O44: where the loop ends, with `CYC` as the charges of its Steps leave it. -/
theorem executeEndsWhenBudgetIsSpent : Obligations.ExecuteEndsWhenBudgetIsSpent := by
  intro budget s
  obtain ⟨n, t, hrun, hreached, hspent, hleast, hover⟩ := execute_ends budget s
  have hcyc : t.cyc = budget - (chargedOver n (s.setCyc budget) : Int) := steps_cyc n hreached
  have hover : min budget (-5) ≤ t.cyc := hover
  refine ⟨n, t, hrun, hreached, hcyc ▸ hspent, hleast, hcyc, fun hpos => ⟨by omega, hspent⟩, fun hle => ?_⟩
  have hn : n = 0 := by
    by_contra hne
    have hpos : 0 < budget - ((0 : Nat) : Int) := hleast 0 (Nat.pos_of_ne_zero hne)
    omega
  subst hn
  cases hreached
  exact ⟨rfl, rfl⟩

end Sys2Proof.Proofs
end

section
/-! SUPPORT. The zero-page,X address as a number, for each value of `ZPX_WRAP` (41_addressing_modes.md R102). -/

namespace Sys2Proof.Machine

@[simp] theorem zext16_toNat (v : Byte) : (zext16 v).toNat = v.toNat :=
  BitVec.toNat_setWidth_of_le (by decide)

/-- The sum of two bytes fits in a word, so adding them as words loses nothing. -/
theorem zext16_add_zext16_toNat (z x : Byte) : (zext16 z + zext16 x).toNat = z.toNat + x.toNat := by
  have hz := z.isLt
  have hx := x.isLt
  rw [BitVec.toNat_add, zext16_toNat, zext16_toNat, Nat.mod_eq_of_lt (by omega)]

/-- With `ZPX_WRAP` false the model's two branches give one address, the exact sum. -/
theorem zpxEA_false_toNat (z x : Byte) : (zpxEA false z x).toNat = z.toNat + x.toNat := by
  rw [zpxEA, if_neg Bool.false_ne_true, ite_self, zext16_add_zext16_toNat]

/-- With `ZPX_WRAP` true the sum is reduced modulo 256, which below `0x100` changes nothing. -/
theorem zpxEA_true_toNat (z x : Byte) : (zpxEA true z x).toNat = (z.toNat + x.toNat) % 256 := by
  by_cases hsum : z.toNat + x.toNat < 0x100
  · rw [zpxEA, if_pos hsum, zext16_add_zext16_toNat, Nat.mod_eq_of_lt hsum]
  · rw [zpxEA, if_neg hsum, if_pos rfl, zext16_toNat, BitVec.toNat_add]

/-- The two values of `ZPX_WRAP` give the same address exactly when the sum is in page zero. -/
theorem zpxEA_false_eq_true_iff (z x : Byte) : zpxEA false z x = zpxEA true z x ↔ z.toNat + x.toNat < 0x100 := by
  rw [← BitVec.toNat_inj, zpxEA_false_toNat, zpxEA_true_toNat, eq_comm]
  exact Nat.mod_eq_iff_lt (by decide)

end Sys2Proof.Machine

namespace Sys2Proof.Proofs

open Sys2Proof.Machine

/-- Settles O28: each address is known as a number, which gives its range and where the two agree. -/
theorem zeroPageXAddress : Obligations.ZeroPageXAddress := by
  intro z x
  have hexact := zpxEA_false_toNat z x
  have hwrapped := zpxEA_true_toNat z x
  have hz := z.isLt
  have hx := x.isLt
  exact ⟨hexact, hwrapped, zpxEA_false_eq_true_iff z x, by omega, by omega⟩

end Sys2Proof.Proofs
end

section
/-! SUPPORT. `LDA`: what `SetZN` and the update shared by the four forms do, said with numbers (42_lda.md R110 to R114),
and the effective addresses of the zero-page modes as numbers (41_addressing_modes.md R101, R102). -/

namespace Sys2Proof.Machine

/-- R110 with both tests of the byte as comparisons of numbers. -/
theorem State.setZN_eq (v : Byte) (s : State) :
    s.setZN v = { s with f := { s.f with z := decide (v.toNat = 0), n := decide (0x80 ≤ v.toNat) } } := by
  have hzero : (v == 0) = decide (v.toNat = 0) := by
    rw [beq_eq_decide]
    exact decide_eq_decide.2 (BitVec.toNat_inj (y := 0)).symm
  have hnegative : v.getLsbD 7 = decide (0x80 ≤ v.toNat) :=
    (BitVec.msb_eq_getLsbD_last v).symm.trans (BitVec.msb_eq_decide v)
  rw [State.setZN, hzero, hnegative]

/-- The next state of a load, field by field. -/
theorem loadA_eq_update (v : Byte) (cost : Nat) (s : State) :
    loadA v cost s = .next
      { s with
        a := v
        f := { s.f with z := decide (v.toNat = 0), n := decide (0x80 ≤ v.toNat) }
        cyc := s.cyc - (cost : Int) } := by
  rw [loadA_eq, State.setZN_eq]
  rfl

@[simp] theorem eaZeroPage_toNat (z : Byte) : (eaZeroPage z).toNat = z.toNat := zext16_toNat z

theorem eaZeroPage_eq_ofNat (z : Byte) : eaZeroPage z = BitVec.ofNat 16 z.toNat := by
  rw [← eaZeroPage_toNat, BitVec.ofNat_toNat, BitVec.setWidth_eq]

/-- The zero-page,X address for whichever value `ZPX_WRAP` has. -/
theorem eaZeroPageX_toNat (z : Byte) (s : State) :
    (eaZeroPageX z s).toNat =
      if Config.zpxWrap then (z.toNat + s.x.toNat) % 256 else z.toNat + s.x.toNat := by
  rw [eaZeroPageX]
  cases Config.zpxWrap
  · exact zpxEA_false_toNat z s.x
  · exact zpxEA_true_toNat z s.x

theorem eaZeroPageX_eq_ofNat (z : Byte) (s : State) :
    eaZeroPageX z s =
      BitVec.ofNat 16 (if Config.zpxWrap then (z.toNat + s.x.toNat) % 256 else z.toNat + s.x.toNat) := by
  rw [← eaZeroPageX_toNat, BitVec.ofNat_toNat, BitVec.setWidth_eq]

end Sys2Proof.Machine

namespace Sys2Proof.Safety

open Sys2Proof.Machine

/-- `A` cannot be zero and have bit 7 set. -/
theorem FlagsFitAccumulator.not_zero_and_negative {s : State} (h : FlagsFitAccumulator s) :
    ¬ (s.f.z = true ∧ s.f.n = true) := by
  obtain ⟨hnegative, hzero⟩ := h
  rintro ⟨hz, hn⟩
  rw [hnegative, hzero hz] at hn
  exact absurd hn (by decide)

/-- The invariant reads only `A` and the flags. -/
theorem FlagsFitAccumulator.of_same {s t : State} (h : FlagsFitAccumulator s) (ha : t.a = s.a) (hf : t.f = s.f) :
    FlagsFitAccumulator t := by
  rwa [FlagsFitAccumulator, ha, hf]

/-- A load establishes the invariant, whatever the flags were before. -/
theorem flagsFitAccumulator_of_loadA {v : Byte} {cost : Nat} {s t : State} (h : loadA v cost s = .next t) :
    FlagsFitAccumulator t := by
  cases (loadA_eq_update v cost s).symm.trans h
  exact ⟨rfl, fun hz => BitVec.eq_of_toNat_eq (of_decide_eq_true hz)⟩

/-- Every Step keeps the invariant: a load establishes it, and no other instruction writes `A` or a flag. -/
theorem FlagsFitAccumulator.step {s t : State} (hfits : FlagsFitAccumulator s) (h : step s = .next t) :
    FlagsFitAccumulator t := by
  rcases step_cases s with ⟨_, hs⟩ | ⟨_, hs⟩ | ⟨_, hs⟩ | ⟨_, hs⟩ | ⟨_, hs⟩ | ⟨_, hs⟩
  · exact flagsFitAccumulator_of_loadA (hs.symm.trans h)
  · exact flagsFitAccumulator_of_loadA (hs.symm.trans h)
  · exact flagsFitAccumulator_of_loadA (hs.symm.trans h)
  · exact flagsFitAccumulator_of_loadA (hs.symm.trans h)
  · cases hs.symm.trans h
    exact hfits.of_same (by simp) (by simp)
  · cases hs.symm.trans h
    exact hfits.of_same (by simp) (by simp)

end Sys2Proof.Safety

namespace Sys2Proof.Proofs

open Sys2Proof.Machine Sys2Proof.Safety

/-- Settles O35: the invariant is kept by every step, and it excludes both flags. -/
theorem stepKeepsFlagsFittingAccumulator : Obligations.StepKeepsFlagsFittingAccumulator := fun _ _ hfits hstep =>
  ⟨hfits.step hstep, (hfits.step hstep).not_zero_and_negative⟩

/-- Settles O21: the opcode's format fetches one byte, which the load writes. -/
theorem stepLdaImmediate : Obligations.StepLdaImmediate := fun _ hop =>
  (step_of_opcode hop).trans (loadA_eq_update _ 2 _)

/-- Settles O22: the address is the operand byte, zero-extended. -/
theorem stepLdaZeroPage : Obligations.StepLdaZeroPage := fun s hop =>
  ⟨eaZeroPage (s.memRead (s.pc + 1)), eaZeroPage_toNat _, (step_of_opcode hop).trans (loadA_eq_update _ 3 _)⟩

/-- Settles O23: the fetch does not write `X`, so the address is that of the state before the step. -/
theorem stepLdaZeroPageX : Obligations.StepLdaZeroPageX := fun s hop =>
  ⟨eaZeroPageX (s.memRead (s.pc + 1)) s, eaZeroPageX_toNat _ s,
    (step_of_opcode hop).trans (loadA_eq_update _ 4 _)⟩

/-- Settles O24: the address is the 16-bit operand, least significant byte first. -/
theorem stepLdaAbsolute : Obligations.StepLdaAbsolute := fun s hop =>
  ⟨wordOf (s.memRead (s.pc + 1)) (s.memRead (s.pc + 2)), toNat_wordOf _ _,
    (step_of_opcode hop).trans (loadA_eq_update _ 4 _)⟩

/-- Settles O27: each row of R110's table decides both comparisons. -/
theorem setZnOutcomes : Obligations.SetZnOutcomes := by
  intro v s
  rw [State.setZN_eq]
  refine ⟨rfl, fun hv => ?_, fun ⟨hlow, hhigh⟩ => ?_, fun hv => ?_⟩
  · exact ⟨decide_eq_true hv, decide_eq_false (by omega)⟩
  · exact ⟨decide_eq_false (by omega), decide_eq_false (by omega)⟩
  · exact ⟨decide_eq_false (by omega), decide_eq_true hv⟩

/-- Settles O15: the value loaded is the operand itself. -/
theorem ldaImmediateCompletes : Obligations.LdaImmediateCompletes := fun imm8 s =>
  loadA_eq_update imm8 2 s

/-- Settles O16: the value loaded is the byte at the zero-extended operand. -/
theorem ldaZeroPageCompletes : Obligations.LdaZeroPageCompletes := by
  intro zp8 s
  rw [← eaZeroPage_eq_ofNat]
  exact loadA_eq_update (s.memRead (eaZeroPage zp8)) 3 s

/-- Settles O17: the value loaded is the byte at the address each value of `ZPX_WRAP` gives. -/
theorem ldaZeroPageXCompletes : Obligations.LdaZeroPageXCompletes := by
  intro zp8 s
  have haddr := eaZeroPageX_eq_ofNat zp8 s
  refine ⟨_, loadA_eq_update (s.memRead (eaZeroPageX zp8 s)) 4 s, rfl, fun hwrap => ?_, fun hwrap => ?_⟩
  · rw [haddr, hwrap, if_neg Bool.false_ne_true]
  · rw [haddr, hwrap, if_pos rfl]

/-- Settles O18: the value loaded is the byte at the operand. -/
theorem ldaAbsoluteCompletes : Obligations.LdaAbsoluteCompletes := fun abs16 s =>
  loadA_eq_update (s.memRead (eaAbsolute abs16)) 4 s

end Sys2Proof.Proofs
end

section
/-! SUPPORT. `JSR`: the halves of the return address as numbers, and the two cells of a push read one at a time
(43_jsr.md R120). -/

namespace Sys2Proof

theorem loByte_eq_ofNat (w : Word) : loByte w = BitVec.ofNat 8 (w.toNat % 256) := by
  apply BitVec.eq_of_toNat_eq
  simp [loByte]

theorem hiByte_eq_ofNat (w : Word) : hiByte w = BitVec.ofNat 8 (w.toNat / 256) := by
  apply BitVec.eq_of_toNat_eq
  simp [hiByte, Nat.shiftRight_eq_div_pow]

/-- The two cells of a push are distinct, also where `SP` wraps. -/
theorem word_ne_add_one (addr : Word) : addr ≠ addr + 1 := fun h =>
  absurd (left_eq_add.1 h) (by decide)

end Sys2Proof

namespace Sys2Proof.Machine

section push_cells
variable {s : State} (h : s.mem.wf = true) (r : Word)
include h

theorem State.memRead_push_sp : (s.push r).memRead s.sp = loByte r := by
  rw [State.memRead_push h, if_neg (word_ne_add_one s.sp), if_pos rfl]

theorem State.memRead_push_sp_add_one : (s.push r).memRead (s.sp + 1) = hiByte r := by
  rw [State.memRead_push h, if_pos rfl]

theorem State.memRead_push_of_ne {addr : Word} (hlow : addr ≠ s.sp) (hhigh : addr ≠ s.sp + 1) :
    (s.push r).memRead addr = s.memRead addr := by
  rw [State.memRead_push h, if_neg hhigh, if_neg hlow]

end push_cells

/-- R120 as one update: a push, a jump, a charge. -/
theorem exec_jsrAbs (abs16 : Word) (s : State) :
    exec (.jsrAbs abs16) s = .next (((s.push (s.pc - 1)).setPc abs16).charge 6) := rfl

end Sys2Proof.Machine

namespace Sys2Proof.Proofs

open Sys2Proof.Machine Sys2Proof.Safety

/-- Settles O19: the jump and the charge write no memory, so the two cells read as the push left them. -/
theorem jsrCompletes : Obligations.JsrCompletes := by
  intro abs16 s
  refine ⟨_, exec_jsrAbs abs16 s, rfl, fun hcanonical => ⟨?_, ?_⟩⟩
  · rw [State.charge_memRead, State.setPc_memRead, State.memRead_push_sp hcanonical, loByte_eq_ofNat]
  · rw [State.charge_memRead, State.setPc_memRead, State.memRead_push_sp_add_one hcanonical, hiByte_eq_ofNat]

/-- Settles O30: none of the three updates writes the registers and flags named, and only the push writes memory. -/
theorem jsrFrame : Obligations.JsrFrame := by
  intro abs16 s t hcanonical h
  cases (exec_jsrAbs abs16 s).symm.trans h
  refine ⟨by simp, by simp, by simp, by simp, by simp, fun addr hlow hhigh => ?_⟩
  rw [State.charge_memRead, State.setPc_memRead, State.memRead_push_of_ne hcanonical _ hlow hhigh]

/-- Settles O25: the step is `JSR` on the operand fetched, from the state with `PC` past the three bytes (log 7); what it
does there is O19, what it keeps is O30. -/
theorem stepJsr : Obligations.StepJsr := by
  intro s hcanonical hop
  obtain ⟨t, hexec, heq, hpushed⟩ :=
    jsrCompletes (wordOf (s.memRead (s.pc + 1)) (s.memRead (s.pc + 2))) (s.setPc (s.pc + 3))
  obtain ⟨hlow, hhigh⟩ := hpushed hcanonical
  obtain ⟨ha, hx, hy, hf, hdiag, hother⟩ := jsrFrame _ (s.setPc (s.pc + 3)) t hcanonical hexec
  have hreturn : (s.setPc (s.pc + 3)).pc - 1 = s.pc + 2 := add_sub_assoc s.pc 3 1
  rw [hreturn] at hlow hhigh
  have hpc : t.pc = wordOf (s.memRead (s.pc + 1)) (s.memRead (s.pc + 2)) := congrArg State.pc heq
  have hsp : t.sp = s.sp + 2 := congrArg State.sp heq
  have hcyc : t.cyc = s.cyc - 6 := congrArg State.cyc heq
  exact ⟨t, (step_of_opcode hop).trans hexec, hpc ▸ toNat_wordOf _ _, hsp, hlow, hhigh, hother, ha, hx, hy, hf, hdiag,
    hcyc⟩

end Sys2Proof.Proofs
end

section
/-! SUPPORT. The host's requests (70_reset_and_hazards.md R155): `InitMemory` empties the memory, `Load` writes memory and
nothing else, one cell at a time, and `SetRegisters` writes the registers and flags it names and nothing else. -/

namespace Sys2Proof.Machine

@[simp] theorem initMemory_memRead (s : State) (addr : Word) : (initMemory s).memRead addr = 0 :=
  State.memRead_of_mem_nil (initMemory_mem s) addr

@[simp] theorem initMemory_initMemory (s : State) : initMemory (initMemory s) = initMemory s := rfl

/-- `Load` changes at most the memory (R157). -/
theorem loadBytes_eq_update : ∀ (cells : List (Word × Byte)) (s : State),
    loadBytes cells s = { s with mem := (loadBytes cells s).mem }
  | [], _ => rfl
  | (addr, v) :: rest, s => loadBytes_eq_update rest (s.memWrite addr v)

section loaded_cells
variable {s : State} (h : s.mem.wf = true) {addr : Word}
include h

/-- A cell that `Load` does not name keeps its byte. -/
theorem memRead_loadBytes_of_forall_ne {cells : List (Word × Byte)} (hne : ∀ c ∈ cells, c.1 ≠ addr) :
    (loadBytes cells s).memRead addr = s.memRead addr := by
  induction cells generalizing s with
  | nil => rfl
  | cons c rest ih =>
    obtain ⟨a, v⟩ := c
    obtain ⟨ha, hrest⟩ := List.forall_mem_cons.1 hne
    rw [loadBytes_cons, ih (State.memWrite_wf h a v) hrest, State.memRead_memWrite h, if_neg ha.symm]

/-- A cell holds the byte of its last pair: `MemWrite` sets it and no later pair names it. -/
theorem memRead_loadBytes_last (pre : List (Word × Byte)) (v : Byte) {post : List (Word × Byte)}
    (hpost : ∀ c ∈ post, c.1 ≠ addr) : (loadBytes (pre ++ (addr, v) :: post) s).memRead addr = v := by
  have hpre : (loadBytes pre s).mem.wf = true := loadBytes_wf pre h
  rw [loadBytes_append, loadBytes_cons, memRead_loadBytes_of_forall_ne (State.memWrite_wf hpre addr v) hpost,
    State.memRead_memWrite hpre, if_pos rfl]

end loaded_cells

/-- The last write of a `SetRegisters` acts on what the writes before it left (R158). -/
theorem setRegisters_concat (ws : List RegisterWrite) (w : RegisterWrite) (s : State) :
    setRegisters (ws ++ [w]) s = writeRegister w (setRegisters ws s) :=
  setRegisters_append [w] ws s

/-- What one register write keeps, any number of them keep. -/
theorem setRegisters_keeps {α : Type} {g : State → α} (hg : ∀ w s, g (writeRegister w s) = g s) :
    ∀ (ws : List RegisterWrite) (s : State), g (setRegisters ws s) = g s
  | [], _ => rfl
  | w :: ws, s => (setRegisters_keeps hg ws (writeRegister w s)).trans (hg w s)

theorem writeRegister_cyc (w : RegisterWrite) (s : State) : (writeRegister w s).cyc = s.cyc := by
  cases w <;> rfl

theorem writeRegister_diag (w : RegisterWrite) (s : State) : (writeRegister w s).diag = s.diag := by
  cases w <;> rfl

/-- The index of a flag in the document's order (10_state.md R18, R19). -/
def FlagName.index : FlagName → Nat
  | .carry => 0
  | .zero => 1
  | .interruptDisable => 2
  | .decimal => 3
  | .break_ => 4
  | .reserved => 5
  | .overflow => 6
  | .negative => 7

/-- A flag written by name stands at its index. -/
theorem Flags.toList_set (f : Flags) (which : FlagName) (q : Bool) :
    (f.set which q).toList = f.toList.set which.index q := by
  cases which <;> rfl

/-- What `ReadState` shows of the flags after a flag is written by name (R159). -/
theorem readState_flags_setRegisters_concat_flag (ws : List RegisterWrite) (s : State) (which : FlagName) (q : Bool) :
    (readState (setRegisters (ws ++ [.flag which q]) s)).flags =
      (readState (setRegisters ws s)).flags.set which.index q := by
  rw [setRegisters_concat]
  exact Flags.toList_set _ which q

end Sys2Proof.Machine

namespace Sys2Proof.Proofs

open Sys2Proof.Machine Sys2Proof.Safety

/-- Settles O4: a named cell reads as its last pair left it, any other as before, and `Load` is an update of the memory
alone. -/
theorem loadWritesNamedCellsOnly : Obligations.LoadWritesNamedCellsOnly := by
  intro cells s hcanonical
  have hnamed (pre post : List (Word × Byte)) (addr : Word) (v : Byte) (hcells : cells = pre ++ (addr, v) :: post)
      (hpost : ∀ c ∈ post, c.1 ≠ addr) : (loadBytes cells s).memRead addr = v :=
    hcells ▸ memRead_loadBytes_last hcanonical pre v hpost
  refine ⟨loadBytes_wf cells hcanonical, fun _ => memRead_loadBytes_of_forall_ne hcanonical, hnamed, ?_⟩
  rw [loadBytes_eq_update]
  exact ⟨rfl, rfl, rfl, rfl, rfl, rfl, rfl, rfl⟩

/-- Settles O5: each write is the last one of its list, no write touches memory, `CYC` or the stream, and each flag is
shown at its index. -/
theorem setRegistersWritesChosenValues : Obligations.SetRegistersWritesChosenValues := by
  refine ⟨setRegisters_nil, fun ws s w v q => ?_, fun ws s => ?_, fun ws s q => ?_, fun s => ⟨rfl, rfl⟩⟩
  · have hlast (r : RegisterWrite) := setRegisters_concat ws r s
    exact ⟨hlast (.pc w), hlast (.sp w), hlast (.a v), hlast (.x v), hlast (.y v), hlast (.flag .carry q),
      hlast (.flag .zero q), hlast (.flag .interruptDisable q), hlast (.flag .decimal q), hlast (.flag .break_ q),
      hlast (.flag .reserved q), hlast (.flag .overflow q), hlast (.flag .negative q)⟩
  · exact ⟨setRegisters_keeps writeRegister_mem ws s, setRegisters_keeps writeRegister_cyc ws s,
      setRegisters_keeps writeRegister_diag ws s⟩
  · have hshown (which : FlagName) := readState_flags_setRegisters_concat_flag ws s which q
    exact ⟨hshown .carry, hshown .zero, hshown .interruptDisable, hshown .decimal, hshown .break_, hshown .reserved,
      hshown .overflow, hshown .negative⟩

/-- Settles O3: the memory lists no cell, as after Reset, and every register, flag and output is kept by its law. -/
theorem initMemoryZeroesEveryCell : Obligations.InitMemoryZeroesEveryCell := fun s =>
  ⟨initMemory_memRead s, initMemory_initMemory s, (applyReset_mem s).trans (initMemory_mem s).symm, initMemory_pc s,
    initMemory_sp s, initMemory_a s, initMemory_x s, initMemory_y s, initMemory_f s, initMemory_cyc s,
    initMemory_diag s⟩

end Sys2Proof.Proofs
end

section
/-! SUPPORT. The three kinds of Step: a load of `A`, `JSR`, and the report of an unrecognized opcode. Each kind has one
equation for the next state; what a Step does to each part of the state is read off the three (40_execute_loop.md R83,
R87). -/

namespace Sys2Proof

/-- The opcodes of the four forms of `LDA` (30_encoding.md R65). -/
def loadOpcodes : List Byte := [0xA9, 0xA5, 0xB5, 0xAD]

theorem mem_loadOpcodes {op : Byte} :
    op ∈ loadOpcodes ↔ op = 0xA9 ∨ op = 0xA5 ∨ op = 0xB5 ∨ op = 0xAD := by
  simp [loadOpcodes]

theorem mem_recognizedOpcodes {op : Byte} : op ∈ recognizedOpcodes ↔ op ∈ loadOpcodes ∨ op = 0x20 := by
  simp [recognizedOpcodes, loadOpcodes, or_assoc]

theorem ne_jsr_of_mem_loadOpcodes {op : Byte} (h : op ∈ loadOpcodes) : op ≠ 0x20 := by
  rintro rfl
  exact absurd h (by decide)

/-- An opcode byte is a load, `JSR` or unrecognized. -/
theorem opcode_kinds (op : Byte) : op ∈ loadOpcodes ∨ op = 0x20 ∨ op ∉ recognizedOpcodes := by
  rw [mem_recognizedOpcodes]
  tauto

theorem not_mem_recognizedOpcodes {op : Byte} :
    op ∉ recognizedOpcodes ↔ op ≠ 0xA9 ∧ op ≠ 0xA5 ∧ op ≠ 0xB5 ∧ op ≠ 0xAD ∧ op ≠ 0x20 := by
  simp [recognizedOpcodes]

end Sys2Proof

namespace Sys2Proof.Machine

open Sys2Proof.Safety

/-- The byte that a load at `PC` puts in `A` (42_lda.md R111 to R114). -/
def loadedByte (s : State) : Byte :=
  if opcodeAt s = 0xA9 then immediate (operand8At s)
  else if opcodeAt s = 0xA5 then s.memRead (eaZeroPage (operand8At s))
  else if opcodeAt s = 0xB5 then s.memRead (eaZeroPageX (operand8At s) s)
  else s.memRead (eaAbsolute (operand16At s))

/-- The address after the bytes of the instruction at `PC`. -/
def pcPast (s : State) : Word := s.pc + BitVec.ofNat 16 (lengthOf (opcodeAt s))

/-- A load: `PC` past the instruction, then the update the four forms share. -/
theorem step_of_load {s : State} (h : opcodeAt s ∈ loadOpcodes) :
    step s = .next ((((s.setPc (pcPast s)).setA (loadedByte s)).setZN (loadedByte s)).charge
      (cycleCost (opcodeAt s))) := by
  rw [pcPast, loadedByte]
  rcases mem_loadOpcodes.1 h with h | h | h | h <;> rw [h] <;> exact step_of_opcode h

/-- `JSR`: the return address pushed is that of the instruction's last byte. -/
theorem step_of_jsr {s : State} (h : opcodeAt s = 0x20) :
    step s = .next ((((s.setPc (s.pc + 3)).push (s.pc + 2)).setPc (operand16At s)).charge 6) := by
  have hreturn : s.pc + 3 - 1 = s.pc + 2 := add_sub_assoc s.pc 3 1
  rw [← hreturn]
  exact step_of_opcode h

/-- Any other byte: `PC` past it, one event, one cycle. -/
theorem step_of_unrecognized {s : State} (h : opcodeAt s ∉ recognizedOpcodes) :
    step s = .next (((s.setPc (s.pc + 1)).report (opcodeAt s)).charge 1) := by
  obtain ⟨h1, h2, h3, h4, h5⟩ := not_mem_recognizedOpcodes.1 h
  have hstep := step_of_opcode (s := s) (op := opcodeAt s) rfl
  rwa [opForm_other h1 h2 h3 h4 h5] at hstep

section one_step
variable {s t : State} (h : step s = .next t)
include h

/-- No Step writes `X`, `Y` or a flag other than Zero and Negative. -/
theorem step_unwritten :
    t.x = s.x ∧ t.y = s.y ∧
    t.f.c = s.f.c ∧ t.f.i = s.f.i ∧ t.f.d = s.f.d ∧ t.f.b = s.f.b ∧ t.f.r = s.f.r ∧ t.f.v = s.f.v := by
  rcases opcode_kinds (opcodeAt s) with hload | hjsr | hother
  · cases (step_of_load hload).symm.trans h; simp
  · cases (step_of_jsr hjsr).symm.trans h; simp
  · cases (step_of_unrecognized hother).symm.trans h; simp

theorem step_a_f_of_not_load (hop : opcodeAt s ∉ loadOpcodes) : t.a = s.a ∧ t.f = s.f := by
  rcases opcode_kinds (opcodeAt s) with hload | hjsr | hother
  · exact absurd hload hop
  · cases (step_of_jsr hjsr).symm.trans h; simp
  · cases (step_of_unrecognized hother).symm.trans h; simp

theorem step_pc_of_jsr (hop : opcodeAt s = 0x20) : t.pc = operand16At s := by
  cases (step_of_jsr hop).symm.trans h
  simp

theorem step_pc_of_ne_jsr (hop : opcodeAt s ≠ 0x20) : t.pc = pcPast s := by
  rcases opcode_kinds (opcodeAt s) with hload | hjsr | hother
  · cases (step_of_load hload).symm.trans h; simp
  · exact absurd hjsr hop
  · cases (step_of_unrecognized hother).symm.trans h
    obtain ⟨h1, h2, h3, h4, h5⟩ := not_mem_recognizedOpcodes.1 hother
    rw [pcPast, lengthOf_other h1 h2 h3 h4 h5]
    rfl

/-- `SP` moves for `JSR` only. -/
theorem step_sp : t.sp = s.sp + if opcodeAt s = 0x20 then 2 else 0 := by
  rcases opcode_kinds (opcodeAt s) with hload | hjsr | hother
  · rw [if_neg (ne_jsr_of_mem_loadOpcodes hload)]
    cases (step_of_load hload).symm.trans h; simp
  · rw [if_pos hjsr]
    cases (step_of_jsr hjsr).symm.trans h; simp
  · rw [if_neg fun hjsr => hother (mem_recognizedOpcodes.2 (.inr hjsr))]
    cases (step_of_unrecognized hother).symm.trans h; simp

/-- A Step reports its opcode byte exactly when the byte is unrecognized. -/
theorem step_diag :
    t.diag = s.diag ++ if recognizedOpcodes.contains (opcodeAt s) then [] else [opcodeAt s] := by
  rcases opcode_kinds (opcodeAt s) with hload | hjsr | hother
  · cases (step_of_load hload).symm.trans h
    simp [mem_recognizedOpcodes.2 (.inl hload)]
  · cases (step_of_jsr hjsr).symm.trans h
    simp [mem_recognizedOpcodes.2 (.inr hjsr)]
  · cases (step_of_unrecognized hother).symm.trans h
    simp [hother]

theorem step_keeps_wf (hwf : s.mem.wf = true) : t.mem.wf = true := by
  by_cases hop : opcodeAt s = 0x20
  · cases (step_of_jsr hop).symm.trans h
    exact State.push_wf (s := s.setPc (s.pc + 3)) hwf _
  · rwa [step_mem_of_ne_jsr hop h]

end one_step

/-! What the memory reads as after a Step: the bytes of the push in the write reach, and elsewhere what it read as. -/

theorem mem_writeReach {s : State} {addr : Word} :
    addr ∈ writeReach s ↔ opcodeAt s = 0x20 ∧ (addr = s.sp ∨ addr = s.sp + 1) := by
  rw [writeReach]
  by_cases hop : opcodeAt s = 0x20
  · rw [if_pos hop]
    simp [hop]
  · rw [if_neg hop]
    exact iff_of_false List.not_mem_nil fun h => hop h.1

section step_memory
variable {s t : State} (hwf : s.mem.wf = true) (h : step s = .next t) {addr : Word}
include hwf h

theorem step_memRead_of_not_mem_writeReach (haddr : addr ∉ writeReach s) : t.memRead addr = s.memRead addr := by
  rw [mem_writeReach] at haddr
  by_cases hop : opcodeAt s = 0x20
  · obtain ⟨hlow, hhigh⟩ := not_or.1 fun hcell => haddr ⟨hop, hcell⟩
    cases (step_of_jsr hop).symm.trans h
    exact State.memRead_push_of_ne (s := s.setPc (s.pc + 3)) hwf _ hlow hhigh
  · rw [State.memRead, step_mem_of_ne_jsr hop h, State.memRead]

/-- The pushed bytes depend only on `PC` and `SP`. -/
theorem step_memRead_of_mem_writeReach (haddr : addr ∈ writeReach s) :
    t.memRead addr = if addr = s.sp then loByte (s.pc + 2) else hiByte (s.pc + 2) := by
  obtain ⟨hop, hcell⟩ := mem_writeReach.1 haddr
  cases (step_of_jsr hop).symm.trans h
  rcases hcell with rfl | rfl
  · rw [if_pos rfl]
    exact State.memRead_push_sp (s := s.setPc (s.pc + 3)) hwf _
  · rw [if_neg (word_ne_add_one s.sp).symm]
    exact State.memRead_push_sp_add_one (s := s.setPc (s.pc + 3)) hwf _

end step_memory

end Sys2Proof.Machine

namespace Sys2Proof.Proofs

open Sys2Proof.Machine Sys2Proof.Safety

/-- Settles O34: only `JSR` writes memory, and a push keeps the canonical form. -/
theorem stepKeepsMemoryCanonical : Obligations.StepKeepsMemoryCanonical := fun _ _ hwf hstep =>
  step_keeps_wf hstep hwf

/-- Settles O26: the next state of an unrecognized opcode, field by field. -/
theorem stepUnrecognized : Obligations.StepUnrecognized := fun _ hop => step_of_unrecognized hop

/-- Settles O32: the charge is a row of R87's table, and each row is from 1 to 6. -/
theorem everyStepCompletesAndCharges : Obligations.EveryStepCompletesAndCharges := by
  intro s
  obtain ⟨t, hstep, hcyc⟩ := step_completes s
  exact ⟨t, hstep, hcyc, cycleCost_bounds (opcodeAt s)⟩

/-- Settles O33: the laws of `PC` and `SP`, read as numbers. -/
theorem pcAndSpAfterStep : Obligations.PcAndSpAfterStep := by
  intro s t h
  refine ⟨fun (hop : opcodeAt s = 0x20) => ⟨?_, ?_⟩, fun (hop : opcodeAt s ≠ 0x20) => ⟨?_, ?_⟩⟩
  · rw [step_pc_of_jsr h hop]
    exact toNat_wordOf _ _
  · rw [step_sp h, if_pos hop]
  · rw [step_pc_of_ne_jsr h hop, pcPast, BitVec.toNat_add, BitVec.toNat_ofNat, Nat.add_mod_mod]
    rfl
  · exact (step_sp h).trans (by rw [if_neg hop]; exact BitVec.add_zero s.sp)

/-- Settles O36: no Step writes the first eight, and one that is no load keeps `A` and all flags. -/
theorem onlyLoadsWriteAAndFlags : Obligations.OnlyLoadsWriteAAndFlags := by
  intro s t h
  obtain ⟨hx, hy, hc, hi, hd, hb, hr, hv⟩ := step_unwritten h
  exact ⟨hx, hy, hc, hi, hd, hb, hr, hv, step_a_f_of_not_load h⟩

/-- Settles O38: the memory law of a Step outside its write reach. -/
theorem stepWritesOnlyItsReach : Obligations.StepWritesOnlyItsReach := fun _ _ hwf hstep _ haddr =>
  step_memRead_of_not_mem_writeReach hwf hstep haddr

/-- Settles O40: the target is `SP`, so the next opcode and operand bytes are the two cells of the push. -/
theorem fetchSeesThePush : Obligations.FetchSeesThePush := by
  intro s t hwf hop h htarget
  have hpc : t.pc = s.sp := (step_pc_of_jsr h hop).trans htarget
  have hlow := step_memRead_of_mem_writeReach hwf h (mem_writeReach.2 ⟨hop, .inl rfl⟩)
  have hhigh := step_memRead_of_mem_writeReach hwf h (mem_writeReach.2 ⟨hop, .inr rfl⟩)
  rw [if_pos rfl] at hlow
  rw [if_neg (word_ne_add_one s.sp).symm] at hhigh
  rw [opcodeAt, operand8At, hpc]
  exact ⟨rfl, hlow, hhigh⟩

end Sys2Proof.Proofs
end

section
/-! SUPPORT. What a Step reads. `A`, `Y`, the flags, `CYC` and the stream are never read (10_state.md R11, R13, R18,
R29, R30); of the memory, only the cells of the read reach (20_memory.md R56). -/

namespace Sys2Proof.Machine

open Sys2Proof.Safety

/-- The instruction bytes of a Step are in its read reach. -/
theorem pc_add_mem_readReach {s : State} {k : Nat} (hk : k < lengthOf (opcodeAt s)) :
    s.pc + BitVec.ofNat 16 k ∈ readReach s :=
  List.mem_append_left _ (List.mem_map.2 ⟨k, List.mem_range.2 hk, rfl⟩)

theorem lengthOf_pos (op : Byte) : 0 < lengthOf op := by
  unfold lengthOf
  split_ifs <;> decide

/-- The data cell of a load is in its read reach. -/
theorem dataCell_mem_readReach (s : State) :
    (opcodeAt s = 0xA5 → eaZeroPage (operand8At s) ∈ readReach s) ∧
    (opcodeAt s = 0xB5 → eaZeroPageX (operand8At s) s ∈ readReach s) ∧
    (opcodeAt s = 0xAD → eaAbsolute (operand16At s) ∈ readReach s) := by
  refine ⟨fun h => ?_, fun h => ?_, fun h => ?_⟩ <;> simp [readReach, h]

section unread_cell
variable {s : State} (hwf : s.mem.wf = true) {cell : Word} (hcell : cell ∉ readReach s) (v : Byte)
include hwf hcell

theorem memRead_memWrite_unread {addr : Word} (haddr : addr ∈ readReach s) :
    (s.memWrite cell v).memRead addr = s.memRead addr := by
  rw [State.memRead_memWrite hwf, if_neg (ne_of_mem_of_not_mem haddr hcell)]

theorem opcodeAt_memWrite_unread : opcodeAt (s.memWrite cell v) = opcodeAt s := by
  have hpc : s.pc ∈ readReach s := by
    simpa using pc_add_mem_readReach (lengthOf_pos (opcodeAt s))
  exact memRead_memWrite_unread hwf hcell v hpc

theorem operand8At_memWrite_unread (hlen : 1 < lengthOf (opcodeAt s)) :
    operand8At (s.memWrite cell v) = operand8At s :=
  memRead_memWrite_unread hwf hcell v (pc_add_mem_readReach hlen)

theorem operand16At_memWrite_unread (hlen : 2 < lengthOf (opcodeAt s)) :
    operand16At (s.memWrite cell v) = operand16At s :=
  congrArg₂ wordOf (operand8At_memWrite_unread hwf hcell v (Nat.lt_of_succ_lt hlen))
    (memRead_memWrite_unread hwf hcell v (pc_add_mem_readReach hlen))

theorem pcPast_memWrite_unread : pcPast (s.memWrite cell v) = pcPast s := by
  rw [pcPast, opcodeAt_memWrite_unread hwf hcell v, State.memWrite_pc, pcPast]

theorem writeReach_memWrite_unread : writeReach (s.memWrite cell v) = writeReach s := by
  rw [writeReach, opcodeAt_memWrite_unread hwf hcell v, State.memWrite_sp, writeReach]

/-- The byte a load takes is its operand or its data cell, both in the read reach. -/
theorem loadedByte_memWrite_unread (hload : opcodeAt s ∈ loadOpcodes) :
    loadedByte (s.memWrite cell v) = loadedByte s := by
  have hop := opcodeAt_memWrite_unread hwf hcell v
  have hread {addr : Word} := memRead_memWrite_unread hwf hcell v (addr := addr)
  obtain ⟨hzp, hzpx, habs⟩ := dataCell_mem_readReach s
  have hx (z : Byte) : eaZeroPageX z (s.memWrite cell v) = eaZeroPageX z s := rfl
  have hlen : 1 < lengthOf (opcodeAt s) := by
    rcases mem_loadOpcodes.1 hload with h | h | h | h <;> rw [h] <;> decide
  rw [loadedByte, loadedByte, hop, operand8At_memWrite_unread hwf hcell v hlen, hx]
  rcases mem_loadOpcodes.1 hload with h | h | h | h
  · rw [if_pos h, if_pos h]
  · rw [hread (hzp h)]
    simp [h]
  · rw [hread (hzpx h)]
    simp [h]
  · rw [operand16At_memWrite_unread hwf hcell v (by rw [h]; decide), hread (habs h)]
    simp [h]

/-- Another byte in an unread cell leads to the same registers, flags, charge and events. -/
theorem step_memWrite_unread {t u : State} (ht : step s = .next t) (hu : step (s.memWrite cell v) = .next u) :
    ∃ m, u = { t with mem := m } := by
  have hop := opcodeAt_memWrite_unread hwf hcell v
  rcases opcode_kinds (opcodeAt s) with hload | hjsr | hother
  · cases (step_of_load hload).symm.trans ht
    cases (step_of_load (hop.symm ▸ hload)).symm.trans hu
    rw [hop, pcPast_memWrite_unread hwf hcell v, loadedByte_memWrite_unread hwf hcell v hload]
    exact ⟨_, rfl⟩
  · cases (step_of_jsr hjsr).symm.trans ht
    cases (step_of_jsr (hop.trans hjsr)).symm.trans hu
    rw [operand16At_memWrite_unread hwf hcell v (by rw [hjsr]; decide)]
    exact ⟨_, rfl⟩
  · cases (step_of_unrecognized hother).symm.trans ht
    cases (step_of_unrecognized (hop.symm ▸ hother)).symm.trans hu
    rw [hop]
    exact ⟨_, rfl⟩

end unread_cell

end Sys2Proof.Machine

namespace Sys2Proof.Proofs

open Sys2Proof.Machine Sys2Proof.Safety

/-- Settles O39: the Step runs the same instruction on the same data, so memory alone can differ; a cell of the write
reach holds a pushed byte in both runs, any other cell what it held before. -/
theorem stepReadsOnlyItsReach : Obligations.StepReadsOnlyItsReach := by
  intro s t u cell v hwf hcell ht hu
  have hwf' := State.memWrite_wf hwf cell v
  have hreach := writeReach_memWrite_unread hwf hcell v
  have hpushed {addr : Word} (haddr : addr ∈ writeReach s) : u.memRead addr = t.memRead addr :=
    (step_memRead_of_mem_writeReach hwf' hu (hreach ▸ haddr)).trans
      (step_memRead_of_mem_writeReach hwf ht haddr).symm
  have hkept {addr : Word} (haddr : addr ∉ writeReach s) :
      u.memRead addr = if addr = cell then v else t.memRead addr := by
    rw [step_memRead_of_not_mem_writeReach hwf' hu (hreach ▸ haddr), State.memRead_memWrite hwf,
      step_memRead_of_not_mem_writeReach hwf ht haddr]
  obtain ⟨m, rfl⟩ := step_memWrite_unread hwf hcell v ht hu
  refine ⟨rfl, rfl, rfl, rfl, rfl, rfl, rfl, rfl, fun addr hne => ?_, ?_⟩
  · by_cases haddr : addr ∈ writeReach s
    · exact hpushed haddr
    · rw [hkept haddr, if_neg hne]
  · split_ifs with haddr
    · exact hpushed haddr
    · rw [hkept haddr, if_pos rfl]

/-- Settles O37: both runs take the same kind of Step with the same operand, and no part of what the Step writes depends
on what differs. -/
theorem stepIgnoresAYFlagsCyc : Obligations.StepIgnoresAYFlagsCyc := by
  intro s t u a y f cyc diag ht hu
  have hcyct : t.cyc = s.cyc - (cycleCost (opcodeAt s) : Int) := step_cyc ht
  have hcycu : u.cyc = cyc - (cycleCost (opcodeAt s) : Int) := step_cyc hu
  have hcharge : u.cyc - cyc = t.cyc - s.cyc := by omega
  have hevents : ∃ events, u.diag = diag ++ events ∧ t.diag = s.diag ++ events := ⟨_, step_diag hu, step_diag ht⟩
  rcases opcode_kinds (opcodeAt s) with hload | hjsr | hother
  · cases (step_of_load hload).symm.trans ht
    cases hu.symm.trans (step_of_load hload)
    exact ⟨rfl, rfl, rfl, rfl, hcharge, hevents, fun _ => ⟨rfl, rfl, rfl⟩⟩
  · cases (step_of_jsr hjsr).symm.trans ht
    cases hu.symm.trans (step_of_jsr hjsr)
    exact ⟨rfl, rfl, rfl, rfl, hcharge, hevents, fun hload => absurd hjsr (ne_jsr_of_mem_loadOpcodes hload)⟩
  · cases (step_of_unrecognized hother).symm.trans ht
    cases hu.symm.trans (step_of_unrecognized hother)
    exact ⟨rfl, rfl, rfl, rfl, hcharge, hevents,
      fun hload => absurd (mem_recognizedOpcodes.2 (.inl hload)) hother⟩

end Sys2Proof.Proofs
end

section
/-! SUPPORT. What `n` Steps and what a run keep or add up: an invariant of the Step, the events, `SP`, the charge. -/

namespace Sys2Proof.Machine

open Sys2Proof.Safety

section one_more_step_counts
variable {s u : State} (h : step s = .next u) (n : Nat)
include h

theorem reportedOver_succ :
    reportedOver (n + 1) s =
      (if recognizedOpcodes.contains (opcodeAt s) then [] else [opcodeAt s]) ++ reportedOver n u := by
  simp only [reportedOver, h]

theorem jsrCount_succ :
    jsrCount (n + 1) s = (if opcodeAt s = 0x20 then 1 else 0) + jsrCount n u := by
  simp only [jsrCount, h]

end one_more_step_counts

/-- `n + 1` Steps that complete are one Step and then `n`. -/
theorem steps_succ_inv {n : Nat} {s t : State} (h : steps (n + 1) s = .next t) :
    ∃ u, step s = .next u ∧ steps n u = .next t := by
  obtain ⟨u, hstep, -⟩ := step_completes s
  exact ⟨u, hstep, (steps_succ hstep n).symm.trans h⟩

/-- What every Step keeps, any number of Steps keep. -/
theorem steps_keeps {P : State → Prop} (hP : ∀ {s t : State}, P s → step s = .next t → P t) :
    ∀ (n : Nat) {s t : State}, P s → steps n s = .next t → P t
  | 0, _, _, hs, h => by
    cases h
    exact hs
  | n + 1, _, _, hs, h => by
    obtain ⟨_, hstep, hrest⟩ := steps_succ_inv h
    exact steps_keeps hP n (hP hs hstep) hrest

theorem steps_diag : ∀ (n : Nat) {s t : State}, steps n s = .next t → t.diag = s.diag ++ reportedOver n s
  | 0, s, _, h => by
    cases h
    exact (List.append_nil s.diag).symm
  | n + 1, s, _, h => by
    obtain ⟨_, hstep, hrest⟩ := steps_succ_inv h
    rw [steps_diag n hrest, step_diag hstep, reportedOver_succ hstep, List.append_assoc]

theorem steps_sp : ∀ (n : Nat) {s t : State}, steps n s = .next t →
    t.sp = s.sp + BitVec.ofNat 16 (2 * jsrCount n s)
  | 0, s, _, h => by
    cases h
    exact (BitVec.add_zero s.sp).symm
  | n + 1, s, _, h => by
    obtain ⟨_, hstep, hrest⟩ := steps_succ_inv h
    rw [steps_sp n hrest, step_sp hstep, jsrCount_succ hstep, Nat.mul_add, BitVec.ofNat_add, ← BitVec.add_assoc]
    split_ifs <;> rfl

/-- `n` Steps are charged from 1 to 6 each. -/
theorem chargedOver_bounds : ∀ (n : Nat) (s : State), n ≤ chargedOver n s ∧ chargedOver n s ≤ 6 * n
  | 0, _ => ⟨le_rfl, le_rfl⟩
  | n + 1, s => by
    obtain ⟨u, hstep, -⟩ := step_completes s
    have ih := chargedOver_bounds n u
    have hcost := cycleCost_bounds (opcodeAt s)
    rw [chargedOver_succ hstep]
    omega

end Sys2Proof.Machine

namespace Sys2Proof.Proofs

open Sys2Proof.Machine Sys2Proof.Safety

/-- Settles O41: each Step appends its own event, if any, before those of the Steps after it. -/
theorem eventsAreTheUnrecognizedOpcodes : Obligations.EventsAreTheUnrecognizedOpcodes := fun n _ _ => steps_diag n

/-- Settles O42: the sum of the moves of `SP`, as a number. -/
theorem stackPointerCountsJsrs : Obligations.StackPointerCountsJsrs := by
  intro n s t h
  rw [steps_sp n h, BitVec.toNat_add, BitVec.toNat_ofNat, Nat.add_mod_mod]

/-- Settles O45: at least 1 is charged per Step and the budget was not spent before the last one; at most 6 is charged
per Step and the budget is spent after it. -/
theorem executeCountIsBounded : Obligations.ExecuteCountIsBounded := by
  intro budget s hpos
  obtain ⟨n, t, hrun, hends⟩ := execute_ends budget s
  refine ⟨n, t, hrun, hends.reached, ?_, ?_⟩
  · have hspent := hends.spent
    have hcyc : t.cyc = budget - (chargedOver n (s.setCyc budget) : Int) := steps_cyc n hends.reached
    have hcharged := (chargedOver_bounds n (s.setCyc budget)).2
    omega
  · cases n with
    | zero => exact Nat.zero_le budget
    | succ m =>
      have hleast : 0 < budget - (chargedOver m (s.setCyc budget) : Int) := hends.least m (Nat.lt_succ_self m)
      have hcharged := (chargedOver_bounds m (s.setCyc budget)).1
      omega

/-- Settles O46: `CYC` is overwritten before it is read, and fuel 1 is spent by the one Step that a budget of 1 allows. -/
theorem executeReloadsBudget : Obligations.ExecuteReloadsBudget := by
  intro budget overdraft s
  refine ⟨rfl, ?_⟩
  obtain ⟨u, hstep, -⟩ := step_completes (s.setCyc 1)
  have hpos : 0 < (s.setCyc 1).cyc := Int.one_pos
  calc execute 1 s = runLoop 0 u := runLoop_succ hstep hpos 0
    _ = .next u := rfl
    _ = step (s.setCyc 1) := hstep.symm

end Sys2Proof.Proofs
end

section
/-! SUPPORT. A session of `Load` and `Execute` requests after a Reset: its invariant, established by Reset and kept by
every request (10_state.md R12, R20). -/

namespace Sys2Proof.Safety

open Sys2Proof.Machine

/-- The three invariants of Safety.lean together. -/
structure SessionInvariant (s : State) : Prop where
  clear : UnwrittenStateIsClear s
  canonical : Canonical s
  fits : FlagsFitAccumulator s

theorem UnwrittenStateIsClear.step {s t : State} (hclear : UnwrittenStateIsClear s) (h : step s = .next t) :
    UnwrittenStateIsClear t := by
  obtain ⟨hx, hy, hc, hi, hd, hb, hr, hv⟩ := step_unwritten h
  rwa [UnwrittenStateIsClear, hx, hy, hc, hi, hd, hb, hr, hv]

namespace SessionInvariant

theorem applyReset (s : State) : SessionInvariant (applyReset s) :=
  ⟨unwrittenStateIsClear_applyReset s, applyReset_wf s, flagsFitAccumulator_applyReset s⟩

section kept
variable {s : State} (hs : SessionInvariant s)
include hs

theorem step {t : State} (h : step s = .next t) : SessionInvariant t :=
  ⟨hs.clear.step h, step_keeps_wf h hs.canonical, hs.fits.step h⟩

theorem setCyc (n : Int) : SessionInvariant (s.setCyc n) := ⟨hs.clear, hs.canonical, hs.fits⟩

/-- `Load` writes memory only, and keeps it canonical. -/
theorem loadBytes (cells : List (Word × Byte)) : SessionInvariant (loadBytes cells s) := by
  refine ⟨?_, loadBytes_wf cells hs.canonical, ?_⟩
  · rw [loadBytes_eq_update]
    exact hs.clear
  · rw [loadBytes_eq_update]
    exact hs.fits

/-- A run completes, and is a number of Steps. -/
theorem execute (budget : Int) : ∃ t, execute budget s = .next t ∧ SessionInvariant t := by
  obtain ⟨n, t, hrun, hends⟩ := execute_ends budget s
  exact ⟨t, hrun, steps_keeps (fun hs h => hs.step h) n (hs.setCyc budget) hends.reached⟩

theorem serve {q : Request} (hq : isLoadOrExecute q = true) : ∃ t, serve q s = .next t ∧ SessionInvariant t := by
  cases q with
  | load cells => exact ⟨_, rfl, hs.loadBytes cells⟩
  | execute budget => exact hs.execute budget
  | initMemory => exact absurd hq Bool.false_ne_true
  | reset => exact absurd hq Bool.false_ne_true
  | setRegisters writes => exact absurd hq Bool.false_ne_true
  | readState => exact absurd hq Bool.false_ne_true

end kept

theorem serveAll : ∀ (qs : List Request) {s : State}, SessionInvariant s → (∀ q ∈ qs, isLoadOrExecute q = true) →
    ∃ t, serveAll qs s = .next t ∧ SessionInvariant t
  | [], s, hs, _ => ⟨s, rfl, hs⟩
  | q :: qs, s, hs, hqs => by
    obtain ⟨hq, hrest⟩ := List.forall_mem_cons.1 hqs
    obtain ⟨u, hserve, hu⟩ := hs.serve hq
    obtain ⟨t, hall, ht⟩ := SessionInvariant.serveAll qs hu hrest
    exact ⟨t, by rw [Machine.serveAll, hserve]; exact hall, ht⟩

end SessionInvariant

end Sys2Proof.Safety

namespace Sys2Proof.Proofs

open Sys2Proof.Machine Sys2Proof.Safety

/-- Settles O47: Reset establishes the invariant of a session, and every `Load` and `Execute` completes and keeps it. -/
theorem sessionFromResetKeepsInvariants : Obligations.SessionFromResetKeepsInvariants := by
  intro qs s hqs
  obtain ⟨t, hall, hclear, hcanonical, hfits⟩ := SessionInvariant.serveAll qs (.applyReset s) hqs
  exact ⟨t, hall, hclear, hcanonical, hfits⟩

end Sys2Proof.Proofs
end

section
/-! SUPPORT. The meanings themselves: the four forms of `LDA` share one update, and an unrecognized opcode is a report and
a charge (42_lda.md R111 to R114, 60_exceptions.md R130). -/

namespace Sys2Proof.Machine

/-- The four forms of `LDA` differ in the byte they load and in their cost. -/
theorem exec_load {i : Instr} (s : State)
    (h : (∃ v, i = .ldaImm v) ∨ (∃ z, i = .ldaZp z) ∨ (∃ z, i = .ldaZpX z) ∨ ∃ w, i = .ldaAbs w) :
    ∃ v cost, exec i s = .next (((s.setA v).setZN v).charge cost) := by
  rcases h with ⟨v, rfl⟩ | ⟨z, rfl⟩ | ⟨z, rfl⟩ | ⟨w, rfl⟩
  · exact ⟨_, _, loadA_eq (immediate v) 2 s⟩
  · exact ⟨_, _, loadA_eq (s.memRead (eaZeroPage z)) 3 s⟩
  · exact ⟨_, _, loadA_eq (s.memRead (eaZeroPageX z s)) 4 s⟩
  · exact ⟨_, _, loadA_eq (s.memRead (eaAbsolute w)) 4 s⟩

theorem exec_unrecognized (op : Byte) (s : State) :
    exec (.unrecognized op) s = .next ((s.report op).charge 1) := rfl

end Sys2Proof.Machine

namespace Sys2Proof.Proofs

open Sys2Proof.Machine

/-- Settles O20: the report and the charge, field by field. -/
theorem unrecognizedCompletes : Obligations.UnrecognizedCompletes := exec_unrecognized

/-- Settles O29: the shared update writes `A`, Zero, Negative and `CYC`. -/
theorem loadFormsFrame : Obligations.LoadFormsFrame := by
  intro i s t hform h
  obtain ⟨v, cost, hexec⟩ := exec_load s hform
  cases hexec.symm.trans h
  simp

/-- Settles O31: a report writes the stream and a charge `CYC`. -/
theorem unrecognizedFrame : Obligations.UnrecognizedFrame := by
  intro op s t h
  cases (exec_unrecognized op s).symm.trans h
  simp

end Sys2Proof.Proofs
end
